-- ==== Sys2Proof/Word.lean ====
section
/-! DEFINITION. The word types of the LCW2 oscillator core (spec/00_scope.md R10, R11). -/

namespace Sys2Proof

/-- One byte of a command word or of a table image (spec/20_memory.md R57). -/
abbrev Byte := BitVec 8

/-- A 16-bit word: a wavetable element (s16, SQ3.12) or the host pitch (u16, U8.8). -/
abbrev Word16 := BitVec 16

/-- A 32-bit word. Read with `toInt` where the spec says s32, with `toNat` where it says u32 or
an unsigned phase. -/
abbrev Word32 := BitVec 32

/-- A 17-bit parameter register in format UQ1.16 (spec/00_scope.md R11). -/
abbrev Param := BitVec 17

/-- A command word `w[127:0]` (spec/30_encoding.md R71). -/
abbrev CommandWord := BitVec 128

end Sys2Proof
end

