-- ==== Sys2Proof/Syntax.lean ====
section
/-! DEFINITION. The six commands (spec/opcode_table.json, spec/30_encoding.md R76), the assembler's
lines (R86) and what the host can present to the core (R70). -/

namespace Sys2Proof

/-- One constructor per row of spec/opcode_table.json. An operand has exactly the width of its field
(spec/30_encoding.md R75), so every value of this type is a legal command. -/
inductive Instr where
  /-- Voice start (46_host_commands.md R181). -/
  | start
  /-- Voice stop (R182). -/
  | stop
  /-- Set the shape parameter; `z` is s32 in SQ15.16 (R183). -/
  | setshape (z : Word32)
  /-- Set the shift-shape parameter; `z` is s32 in SQ15.16 (R184). -/
  | setshift (z : Word32)
  /-- Set the table index parameter; `z` is an s32 integer (R185). -/
  | settable (z : Word32)
  /-- Process one block: host pitch (u16, U8.8), modulation input at block end (s32), frame count
  (u32) (R186). -/
  | proc (hostPitch : Word16) (y z : Word32)
deriving DecidableEq, Repr

/-- One line of an assembler program (spec/30_encoding.md R86): operands are the integers written,
not yet checked against their accepted ranges. -/
inductive AsmLine where
  | start
  | stop
  | setshape (imm : Int)
  | setshift (imm : Int)
  | settable (imm : Int)
  | proc (pitch modin frames : Int)
  /-- The directive `.word`, the only way to write an illegal word (R86). -/
  | word (w : CommandWord)
deriving DecidableEq, Repr

/-- What the host can do to the core (spec/46_host_commands.md R189): assert the RESET port, or
present one word on the CMD port (spec/30_encoding.md R70). -/
inductive HostInput where
  | reset
  | command (w : CommandWord)
deriving DecidableEq, Repr

end Sys2Proof
end

