-- ==== Sys2Proof/WellFormed.lean ====
section
/-! DEFINITION. Which terms of Syntax.lean are well-formed. -/

namespace Sys2Proof

/-- Every value of `Instr` is a legal command: each operand has the width of its field, and
out-of-range operand VALUES are legal (spec/30_encoding.md R77, R78). -/
def Instr.wellFormed : Instr → Bool
  | .start => true
  | .stop => true
  | .setshape _ => true
  | .setshift _ => true
  | .settable _ => true
  | .proc _ _ _ => true

/-- The range `-2^31 .. 2^32 - 1` the assembler accepts for `<imm32>` and `<modin32>` (R86). -/
def inImm32 (v : Int) : Bool := decide (-2147483648 ≤ v ∧ v ≤ 4294967295)

/-- The range `0 .. 65535` of `<pitch16>` (R86). -/
def inPitch16 (v : Int) : Bool := decide (0 ≤ v ∧ v ≤ 65535)

/-- The range `0 .. 2^32 - 1` of `<frames32>` (R86). -/
def inFrames32 (v : Int) : Bool := decide (0 ≤ v ∧ v ≤ 4294967295)

/-- "An operand outside its accepted range is an assembler error, never a truncated encoding"
(spec/30_encoding.md R86). -/
def AsmLine.wellFormed : AsmLine → Bool
  | .start => true
  | .stop => true
  | .setshape imm => inImm32 imm
  | .setshift imm => inImm32 imm
  | .settable imm => inImm32 imm
  | .proc pitch modin frames => inPitch16 pitch && inImm32 modin && inFrames32 frames
  | .word _ => true

end Sys2Proof
end

