-- ==== Sys2Proof/Decode.lean ====
section
/-! DEFINITION. The command decoder and encoder (spec/30_encoding.md R71 to R80, R85) and the
little-endian byte order of command words and table images (spec/20_memory.md R57). -/

namespace Sys2Proof

/-! ### The fields of a command word (R71) -/

/-- `op`, bits 127:120. -/
def fieldOp (w : CommandWord) : BitVec 8 := w.extractLsb' 120 8

/-- `rsv`, bits 119:96, must be zero. -/
def fieldRsv (w : CommandWord) : BitVec 24 := w.extractLsb' 96 24

/-- `X`, bits 95:64. -/
def fieldX (w : CommandWord) : Word32 := w.extractLsb' 64 32

/-- `X[31:16]`, bits 95:80, must be zero in format P (R74). -/
def fieldXHigh (w : CommandWord) : Word16 := w.extractLsb' 80 16

/-- `hostPitch = X[15:0]`, bits 79:64 (R74). -/
def fieldPitch (w : CommandWord) : Word16 := w.extractLsb' 64 16

/-- `Y`, bits 63:32. -/
def fieldY (w : CommandWord) : Word32 := w.extractLsb' 32 32

/-- `Z`, bits 31:0. -/
def fieldZ (w : CommandWord) : Word32 := w.extractLsb' 0 32

/-- The must-be-zero bits of format N are zero (R72). -/
def formatN (w : CommandWord) : Bool :=
  fieldRsv w == 0 && fieldX w == 0 && fieldY w == 0 && fieldZ w == 0

/-- The must-be-zero bits of format V are zero (R73). -/
def formatV (w : CommandWord) : Bool :=
  fieldRsv w == 0 && fieldX w == 0 && fieldY w == 0

/-- The must-be-zero bits of format P are zero (R74). -/
def formatP (w : CommandWord) : Bool :=
  fieldRsv w == 0 && fieldXHigh w == 0

/-! ### Decoding -/

/-- Why bytes are not a legal command. All of them are the one IllegalCommand to the core
(spec/60_exceptions.md R203); the name is the decoder's own. -/
inductive DecodeError where
  /-- `op` is 0x00 or 0x07 to 0xFF (R77 (a)). -/
  | reservedOpcode (op : BitVec 8)
  /-- `op` is defined and a must-be-zero bit of its format is 1 (R77 (b)). -/
  | mustBeZero (op : BitVec 8)
  /-- Not the 16 bytes of one word; a command is always 128 bits (R80). -/
  | notOneWord (bytes : Nat)
deriving DecidableEq, Repr

/-- `i` where the format's must-be-zero bits are zero, else the word is illegal (R77 (b)). -/
def decodeFormat (ok : Bool) (w : CommandWord) (i : Instr) : Except DecodeError Instr :=
  if ok then .ok i else .error (.mustBeZero (fieldOp w))

/-- The decoder: total on every 128-bit word (R76, R77). -/
def decode (w : CommandWord) : Except DecodeError Instr :=
  match (fieldOp w).toNat with
  | 1 => decodeFormat (formatN w) w .start
  | 2 => decodeFormat (formatN w) w .stop
  | 3 => decodeFormat (formatV w) w (.setshape (fieldZ w))
  | 4 => decodeFormat (formatV w) w (.setshift (fieldZ w))
  | 5 => decodeFormat (formatV w) w (.settable (fieldZ w))
  | 6 => decodeFormat (formatP w) w (.proc (fieldPitch w) (fieldY w) (fieldZ w))
  | _ => .error (.reservedOpcode (fieldOp w))

/-! ### The opcode map as match and mask (R76) -/

/-- One row of the opcode map: a word is that command exactly when `w & mask = pattern`. -/
structure OpcodeRow where
  mnemonic : String
  pattern : CommandWord
  mask : CommandWord
deriving DecidableEq, Repr

/-- The row START of R76. -/
def rowStart : OpcodeRow :=
  ⟨"START", 0x01000000000000000000000000000000#128,
    0xFFFFFFFFFFFFFFFFFFFFFFFFFFFFFFFF#128⟩

/-- The row STOP of R76. -/
def rowStop : OpcodeRow :=
  ⟨"STOP", 0x02000000000000000000000000000000#128,
    0xFFFFFFFFFFFFFFFFFFFFFFFFFFFFFFFF#128⟩

/-- The row SETSHAPE of R76. -/
def rowSetshape : OpcodeRow :=
  ⟨"SETSHAPE", 0x03000000000000000000000000000000#128,
    0xFFFFFFFFFFFFFFFFFFFFFFFF00000000#128⟩

/-- The row SETSHIFT of R76. -/
def rowSetshift : OpcodeRow :=
  ⟨"SETSHIFT", 0x04000000000000000000000000000000#128,
    0xFFFFFFFFFFFFFFFFFFFFFFFF00000000#128⟩

/-- The row SETTABLE of R76. -/
def rowSettable : OpcodeRow :=
  ⟨"SETTABLE", 0x05000000000000000000000000000000#128,
    0xFFFFFFFFFFFFFFFFFFFFFFFF00000000#128⟩

/-- The row PROC of R76. -/
def rowProc : OpcodeRow :=
  ⟨"PROC", 0x06000000000000000000000000000000#128,
    0xFFFFFFFFFFFF00000000000000000000#128⟩

/-- The six rows of R76. -/
def opcodeMap : List OpcodeRow :=
  [rowStart, rowStop, rowSetshape, rowSetshift, rowSettable, rowProc]

/-- `w & mask = pattern`. -/
def OpcodeRow.covers (r : OpcodeRow) (w : CommandWord) : Bool := w &&& r.mask == r.pattern

/-- A legal word matches a row of R76; every other word is illegal (R77). -/
def legalWord (w : CommandWord) : Bool := opcodeMap.any (fun r => r.covers w)

/-! ### Encoding -/

/-- `{op, rsv = 0, X, Y, Z}` (R71). -/
def packWord (op : BitVec 8) (x y z : Word32) : CommandWord :=
  op ++ 0#24 ++ x ++ y ++ z

/-- The word of an instruction: the row of R76 with the operand fields filled in and every
must-be-zero bit zero. -/
def encode : Instr → CommandWord
  | .start => packWord 0x01#8 0 0 0
  | .stop => packWord 0x02#8 0 0 0
  | .setshape z => packWord 0x03#8 0 0 z
  | .setshift z => packWord 0x04#8 0 0 z
  | .settable z => packWord 0x05#8 0 0 z
  | .proc hostPitch y z => packWord 0x06#8 (0#16 ++ hostPitch) y z

/-- The row of R76 an instruction belongs to. -/
def Instr.row : Instr → OpcodeRow
  | .start => rowStart
  | .stop => rowStop
  | .setshape _ => rowSetshape
  | .setshift _ => rowSetshift
  | .settable _ => rowSettable
  | .proc _ _ _ => rowProc

/-! ### Bytes (R57, R85) -/

/-- The number a little-endian byte string stands for: the least significant byte comes first. -/
def leNat : List Byte → Nat
  | [] => 0
  | b :: bs => b.toNat + 256 * leNat bs

/-- The first `n` little-endian bytes of `v`. -/
def leBytes : Nat → Nat → List Byte
  | 0, _ => []
  | n + 1, v => BitVec.ofNat 8 v :: leBytes n (v / 256)

/-- A command word as 16 bytes: byte 0 holds `w[7:0]`, byte 15 the opcode (R85). -/
def bytesOfWord (w : CommandWord) : List Byte := leBytes 16 w.toNat

/-- The command word carried by 16 bytes; any other number of bytes is no word (R80). -/
def wordOfBytes (bs : List Byte) : Option CommandWord :=
  if bs.length = 16 then some (BitVec.ofNat 128 (leNat bs)) else none

/-- A command word as four 32-bit words: word 0 is `Z`, word 1 is `Y`, word 2 is `X`, word 3 is
`{op, rsv}` (R85). -/
def wordsOfWord (w : CommandWord) : List Word32 :=
  [fieldZ w, fieldY w, fieldX w, fieldOp w ++ fieldRsv w]

/-- The decoder on a byte string: total, rejecting by name. -/
def decodeBytes (bs : List Byte) : Except DecodeError Instr :=
  match wordOfBytes bs with
  | some w => decode w
  | none => .error (.notOneWord bs.length)

/-- The s16 elements of a WAVE table image, least significant byte first (R57, R84); a last odd byte
is no element. -/
def elements16 : List Byte → List Word16
  | b0 :: b1 :: bs => (b1 ++ b0) :: elements16 bs
  | _ => []

/-- The 32-bit elements of a CLIP or LFODELTA table image, least significant byte first (R57, R84);
fewer than four bytes at the end are no element. -/
def elements32 : List Byte → List Word32
  | b0 :: b1 :: b2 :: b3 :: bs => (b3 ++ b2 ++ b1 ++ b0) :: elements32 bs
  | _ => []

/-- The instruction the decoder reads from the low `nbits` bits of `w`, carried as the 16 bytes of
R85; bits above the 128 of a command word cannot be carried, so a number that needs them is no
command (R80). -/
def decodeTableWord (nbits w : Nat) : Option Instr :=
  let v := w % 2 ^ nbits
  if v < 2 ^ 128 then
    match decodeBytes (leBytes 16 v) with
    | .ok i => some i
    | .error _ => none
  else none

end Sys2Proof
end

