-- ==== Sys2Proof/Config.lean ====
section
/-! DEFINITION. The configuration CFG (spec/00_scope.md R5 to R9): what an implementation of the
core fixes and the spec leaves open. It is not state (spec/10_state.md R43). -/

namespace Sys2Proof

/-- The configuration record with the constraints of spec/70_reset_and_hazards.md R224 as proofs,
so that a record that violates one cannot be written down (93_implementation_defined.md U3).
The two ordering constraints are stated for every pair of positions, which for `≤` and `<` says the
same as for neighbours. -/
structure Cfg where
  /-- Bit width of every phase accumulator and phase increment (R5). -/
  B : Nat
  /-- log2 of the number of entries of one wavetable (R5). -/
  T : Nat
  /-- Number of wavetables; table `N - 1` is the modulator table (R6). -/
  N : Nat
  /-- Number of entries of the soft-clip table (R6). -/
  K : Nat
  /-- log2 of the input span of one soft-clip segment (R6). -/
  S : Nat
  /-- Space WAVE: table `n` at elements `n * 2^T ..` (20_memory.md R51), s16 SQ3.12. -/
  wave : List Word16
  /-- Space CLIP (20_memory.md R53), s32 SQ7.24. -/
  clip : List Word32
  /-- Space LFODELTA (20_memory.md R54), u32. -/
  lfoDelta : List Word32
  /-- PITCH_CONV: core pitch (s32 SQ7.24) to phase increment (R8). -/
  pitchConv : Word32 → Word32
  /-- ROUTE_MIN, SQ15.16 (R9). -/
  routeMin : Nat
  /-- ROUTE_SPAN, SQ15.16 (R9). -/
  routeSpan : Nat
  one_le_T : 1 ≤ T
  T_add_eight_le_B : T + 8 ≤ B
  fourteen_le_B : 14 ≤ B
  B_le : B ≤ 32
  two_le_N : 2 ≤ N
  two_le_K : 2 ≤ K
  eight_le_S : 8 ≤ S
  S_le : S ≤ 30
  /-- Every wavetable is present at its full length (R224). -/
  wave_length : wave.length = N * 2 ^ T
  clip_length : clip.length = K
  /-- `CLIP[0] = 0` (44_soft_clip_limiter.md R141). -/
  clip_zero : clip[0]? = some 0
  /-- `0 ≤ CLIP[j] ≤ 2^31 - 1` (R141). -/
  clip_nonneg : ∀ x ∈ clip, x.toNat < 2 ^ 31
  /-- CLIP is non-decreasing (R141). -/
  clip_sorted : clip.Pairwise (fun a b => a.toNat ≤ b.toNat)
  /-- Exactly 48 entries (43_lfo_subsystem.md R131). -/
  lfoDelta_length : lfoDelta.length = 48
  /-- LFO_DELTA is strictly increasing (R131; 90_conflicts.md C3). -/
  lfoDelta_sorted : lfoDelta.Pairwise (fun a b => a.toNat < b.toNat)
  /-- Every entry is below `2^B` (R131). -/
  lfoDelta_lt : ∀ x ∈ lfoDelta, x.toNat < 2 ^ B
  /-- PITCH_CONV is total with results in `[0, 2^B)` (R8). -/
  pitchConv_lt : ∀ p, (pitchConv p).toNat < 2 ^ B
  /-- PITCH_CONV is monotonic non-decreasing in the signed pitch (R8). -/
  pitchConv_mono : ∀ p q, p.toInt ≤ q.toInt → (pitchConv p).toNat ≤ (pitchConv q).toNat
  one_le_routeMin : 1 ≤ routeMin
  route_le : routeMin + routeSpan ≤ 2 ^ 31 - 1

/-- CFG_TINY's pitch converter, `clamp(1024 + (p >>a 14), 1, 65535)`
(spec/95_test_vectors.md section 2). -/
def tinyPitchConv (p : Word32) : Word32 :=
  BitVec.ofNat 32 (max 1 (min 65535 (1024 + p.toInt / 16384))).toNat

theorem tinyPitchConv_toNat (p : Word32) :
    (tinyPitchConv p).toNat = (max 1 (min 65535 (1024 + p.toInt / 16384))).toNat := by
  unfold tinyPitchConv
  rw [BitVec.toNat_ofNat, Nat.mod_eq_of_lt]
  omega

/-- The test configuration CFG_TINY (spec/95_test_vectors.md section 2): invented for testing, and
no description of any real core (92_eei_decisions.md D29). The model's tests use it; the machine
itself does not (see `Config.installed`). -/
def Cfg.tiny : Cfg where
  B := 16
  T := 4
  N := 3
  K := 5
  S := 23
  wave := ([0, 1567, 2896, 3784, 4096, 3784, 2896, 1567,
            0, -1567, -2896, -3784, -4096, -3784, -2896, -1567] ++
           [4608, 3584, 3072, 2560, 2048, 1536, 1024, 512,
            0, -512, -1024, -1536, -2048, -2560, -3072, -4608] ++
           [0, 1024, 2048, 3072, 4096, 3072, 2048, 1024,
            0, -1024, -2048, -3072, -4096, -3072, -2048, -1024]).map (BitVec.ofInt 16)
  clip := [0x000000#32, 0x780000#32, 0xC00000#32, 0xE00000#32, 0xF00000#32]
  lfoDelta := (List.range 48).map (fun i => BitVec.ofNat 32 ((5 + i % 5) <<< (i / 5)))
  pitchConv := tinyPitchConv
  routeMin := 1
  routeSpan := 0x40000
  one_le_T := by decide
  T_add_eight_le_B := by decide
  fourteen_le_B := by decide
  B_le := by decide
  two_le_N := by decide
  two_le_K := by decide
  eight_le_S := by decide
  S_le := by decide
  wave_length := by simp
  clip_length := by decide
  clip_zero := by decide
  clip_nonneg := by norm_num
  clip_sorted := by decide
  lfoDelta_length := by decide
  lfoDelta_sorted := by decide +kernel
  lfoDelta_lt := by norm_num; decide
  pitchConv_lt := by intro p; rw [tinyPitchConv_toNat]; omega
  pitchConv_mono := by
    intro p q h
    rw [tinyPitchConv_toNat, tinyPitchConv_toNat]
    have : p.toInt / 16384 ≤ q.toInt / 16384 := Int.ediv_le_ediv (by decide) h
    omega
  one_le_routeMin := by decide
  route_le := by decide

/-- A core as it was built: it holds one configuration. The default only shows Lean that such a
record exists; nothing can be proved of the value of `Config.installed` from it. -/
structure Installed where
  cfg : Cfg := Cfg.tiny
deriving Inhabited

/-- The configuration the core was built with: a constant without a body, so a claim about the
machine holds for ANY configuration within the constraints (93_implementation_defined.md U6, U7;
log 1). -/
opaque Config.installed : Installed

/-- The configuration the machine reads (DESIGN CHOICE that it is a constant and not an argument of
the step, log 1; safe). -/
def Config.cfg : Cfg := Config.installed.cfg

/-- What a read outside space WAVE would give: nothing is known of it (spec/20_memory.md R50 defines
MemRead only inside the space; log 4). -/
opaque Config.strayWave : Nat → Word16

/-- What a read outside space CLIP would give (R50, log 4). -/
opaque Config.strayClip : Nat → Word32

/-- What a read outside space LFODELTA would give (R50, log 4). -/
opaque Config.strayLfoDelta : Nat → Word32

end Sys2Proof
end

