-- ==== Sys2Proof/Machine/Numeric.lean ====
section
/-! DEFINITION. The fixed-point numeric layer (spec/40_numeric_layer.md R90 to R96), on mathematical
integers. Products, sums and differences are exact (R97, R98); nothing raises anything (R99). -/

namespace Sys2Proof.Machine

/-- `wrapB(v) = v mod 2^B` (R90). -/
def wrapB (c : Cfg) (v : Int) : Int := v % 2 ^ c.B

/-- `wrap32s(v)`: the low 32 bits read as two's complement (R91). -/
def wrap32s (v : Int) : Int :=
  let r := v % 4294967296
  if r < 2147483648 then r else r - 4294967296

/-- `clamp(v, lo, hi)` (R93). -/
def clamp (v lo hi : Int) : Int := if v < lo then lo else if hi < v then hi else v

/-- `sat32(v)`, the saturating conversion to s32 (R92). -/
def sat32 (v : Int) : Int :=
  if v < -2147483648 then -2147483648 else if 2147483647 < v then 2147483647 else v

/-- `truncdiv(a, d)`: the quotient rounded toward zero, for `d > 0` (R94). -/
def truncdiv (a d : Int) : Int := if 0 ≤ a then a / d else -(-a / d)

/-- `sext_N(v)`: the `N`-bit pattern `v` read as two's complement (R95). -/
def sext (n v : Nat) : Int := if v < 2 ^ (n - 1) then v else v - 2 ^ n

/-- `zext_N(v)`: the pattern read as unsigned (R95). -/
def zext (v : Nat) : Int := v

/-- `a >>a n`: arithmetic shift right, rounding toward minus infinity (R96). -/
def sra (a : Int) (n : Nat) : Int := a / 2 ^ n

/-- The low `n` bits of `v`, as `v & (2^n - 1)` (00_scope.md R12). -/
def lowBits (v n : Nat) : Nat := v &&& (2 ^ n - 1)

/-- A register value of at most 32 bits, unsigned or two's complement, from the integer a rule
computes (R98: the result fits its destination, or the rule reduced it). -/
def toReg (v : Int) : Word32 := BitVec.ofInt 32 v

end Sys2Proof.Machine
end

