-- ==== Sys2Proof/Machine/State.lean ====
section
/-! DEFINITION. The state of the core (spec/10_state.md R20 to R44): plain data, every register the
spec names, the output stream, the sequencer's position and what the host presents next. -/

namespace Sys2Proof.Machine

/-- Why the machine would stop. NOTHING raises a fault: "No datapath operation and no legal command
can raise an exception, trap, fault or error of any kind" (spec/60_exceptions.md R200), and the one
exception, IllegalCommand, is a next state (R201; log 8). So the type has no constructor (safe). -/
inductive Fault
deriving DecidableEq, Repr

/-- Why the model would give an instruction no meaning. -/
inductive Refusal where
  /-- An arm of exec that has no meaning yet would answer this (safe); no arm does. -/
  | notModelled (mnemonic : String)
deriving DecidableEq, Repr

/-- The position of the sequencer inside the command it is executing (R38), which takes the place of
a program counter. Inside a frame a position carries the temporaries (R42) a later step of the same
frame still reads, as the mathematical integers of the rules (R10; log 6). -/
inductive SeqPos where
  /-- No command is in progress. -/
  | idle
  /-- A PROC has been accepted with these operands; its setup comes next (R150). -/
  | setup (hostPitch : Word16) (y z : Word32)
  /-- Emit the sample (45_sample_pipeline.md R161). -/
  | step1
  /-- Recompute the driver increment (R162). -/
  | step2
  /-- Advance the driver phase (R163). -/
  | step3
  /-- LFO output, then LFO phase advance (R164). -/
  | step4
  /-- Modulator sample (R165). -/
  | step5 (lfoOut : Int)
  /-- Raw modulation index (R167). -/
  | step6 (lfoOut m : Int)
  /-- Clipping (R168). -/
  | step7 (raw : Int)
  /-- Modulated increment (R169). -/
  | step8 (c : Int)
  /-- Advance the output phase (R170). -/
  | step9 (modInc : Int)
  /-- Accumulate the modulation input and end the frame (R171). -/
  | step10
deriving DecidableEq, Repr

/-- The state. Unsigned registers of width `B` are held in 32-bit containers, `B` being at most 32
(log 5). -/
@[ext]
structure State where
  /-- Phase of the unmodulated driver (R21). -/
  driverPhase : Word32
  /-- Modulated phase the output is read at (R22). -/
  outputPhase : Word32
  /-- Unmodulated phase increment (R23). -/
  driverIncrement : Word32
  /-- Index of the active carrier wavetable (R24). -/
  waveSel : Nat
  /-- Phase of the LFO (R25). -/
  lfoPhase : Word32
  /-- Phase increment of the LFO (R26). -/
  lfoIncrement : Word32
  /-- Core pitch, s32 SQ7.24 (R28). -/
  pitch : Word32
  /-- Static modulation offset, s32 SQ15.16 (R29). -/
  staticOffset : Word32
  /-- LFO depth, s32 SQ15.16 (R30). -/
  depth : Word32
  /-- Smoothed modulation-input accumulator, s32 (R32). -/
  modIn : Word32
  /-- Its per-frame increment, s32 (R33). -/
  modInDelta : Word32
  /-- PARAM_SHAPE, u17 UQ1.16 (R34). -/
  paramShape : Param
  /-- PARAM_SHIFT, u17 UQ1.16 (R35). -/
  paramShift : Param
  /-- PARAM_TABLE, s32 (R36). -/
  paramTable : Word32
  /-- Frame count of the PROC in progress, u32 (R39). -/
  frameCnt : Word32
  /-- Frames of it already completed, u32 (R39). -/
  frameIdx : Word32
  /-- The sticky illegal-command flag (R40). -/
  ill : Bool
  /-- OUT: every sample emitted since reset, in emission order (R41). -/
  out : List Word32
  /-- The sequencer's position (R38). -/
  seq : SeqPos
  /-- The MODEL's own field: what the host presents next on RESET and CMD, in order (log 3). -/
  inputs : List HostInput
deriving DecidableEq, Repr

/-- The machine right after reset: the table of R44, with OUT empty and the sequencer idle. Nothing
is presented by the host (DESIGN CHOICE, log 3). -/
def State.reset : State where
  driverPhase := 0
  outputPhase := 0
  driverIncrement := 0
  waveSel := 0
  lfoPhase := 0
  lfoIncrement := 0
  pitch := 0
  staticOffset := 0
  depth := 0
  modIn := 0
  modInDelta := 0
  paramShape := 0
  paramShift := 0
  paramTable := 0
  frameCnt := 0
  frameIdx := 0
  ill := false
  out := []
  seq := .idle
  inputs := []

end Sys2Proof.Machine
end

