-- ==== Sys2Proof/Machine/Ops.lean ====
section
/-! DEFINITION. The named operations over the table spaces and the state: MemRead
(spec/20_memory.md R50 to R54, 00_scope.md R14), emit (R15), the IllegalCommand exception
(spec/60_exceptions.md R201) and the reset event (spec/70_reset_and_hazards.md R220). There is no
MemWrite: no operation writes any space (20_memory.md R59). -/

namespace Sys2Proof.Machine

/-! ### Table reads -/

/-- `MemRead(WAVE, addr)`, an s16 in SQ3.12 (R50, R51). -/
def readWave (c : Cfg) (addr : Nat) : Int :=
  ((c.wave[addr]?).getD (Config.strayWave addr)).toInt

/-- `MemRead(CLIP, addr)`, an s32 in SQ7.24 (R50, R53). -/
def readClip (c : Cfg) (addr : Nat) : Int :=
  ((c.clip[addr]?).getD (Config.strayClip addr)).toInt

/-- `MemRead(LFODELTA, addr)`, a u32 (R50, R54). -/
def readLfoDelta (c : Cfg) (addr : Nat) : Word32 :=
  (c.lfoDelta[addr]?).getD (Config.strayLfoDelta addr)

/-- `WAVE[n][i] = MemRead(WAVE, n * 2^T + i)` (00_scope.md R14, 20_memory.md R51). -/
def waveElement (c : Cfg) (n i : Nat) : Int := readWave c (n * 2 ^ c.T + i)

/-! ### The output stream -/

/-- `emit(v)`: append the s32 value `v` to OUT (00_scope.md R15, 10_state.md R41). -/
def emit (v : Int) (s : State) : State := { s with out := s.out ++ [toReg v] }

/-! ### Taking an exception, and leaving it -/

/-- `raise IllegalCommand(w)`: `ill <- 1` and nothing else; the word is discarded, saved nowhere, and
the sequencer is idle (R201). This is the whole of trap entry (R204). There is no return from it:
`ill` stays 1 until reset (R205). -/
def raiseIllegalCommand (s : State) : State := { s with ill := true }

/-! ### The reset event -/

/-- Asserting RESET: every register at its reset value, OUT empty, the sequencer idle, a command in
progress abandoned (R220). What the host goes on to present is the host's and stays (log 3); the
configuration is untouched (R222). -/
def resetEvent (s : State) : State := { State.reset with inputs := s.inputs }

end Sys2Proof.Machine
end

