-- ==== Sys2Proof/Machine/Lfo.lean ====
section
/-! DEFINITION. The LFO subsystem: rate mapping, triangle generator, LFO output
(spec/43_lfo_subsystem.md R130 to R133). The advance of its phase is LFOADV, in Phase.lean. -/

namespace Sys2Proof.Machine

/-- LFOMAP's index: `clamp((PARAM_SHIFT * 47 + 32768) >> 16, 0, 47)`, to nearest with halves upward
(R130). -/
def lfoIndex (shift : Int) : Nat := (clamp (sra (shift * 47 + 32768) 16) 0 47).toNat

/-- LFOMAP's register write: `lfoIncrement <- LFO_DELTA[idx]` (R130). -/
def lfomap (c : Cfg) (idx : Nat) (s : State) : State := { s with lfoIncrement := readLfoDelta c idx }

/-- TRIGEN, the triangle generator, an s16 in SQ3.12; it reads no memory (R132). -/
def trigen (c : Cfg) (p : Nat) : Int :=
  if p < 2 ^ (c.B - 1) then 4096 - ((p >>> (c.B - 14) : Nat) : Int)
  else -4096 + (((p - 2 ^ (c.B - 1)) >>> (c.B - 14) : Nat) : Int)

/-- The triangle value `w` scaled by `depth` (R133). -/
def lfoScale (w depth : Int) : Int := sra (w * depth) 12

/-- LFOOUT, the LFO output, taken from the phase BEFORE the advance (R133). -/
def lfoout (c : Cfg) (s : State) : Int := lfoScale (trigen c s.lfoPhase.toNat) s.depth.toInt

end Sys2Proof.Machine
end

