-- ==== Sys2Proof/Machine/Operands.lean ====
section
/-! DEFINITION. The type a command's operand has after decoding (spec/30_encoding.md R75). -/

namespace Sys2Proof.Machine

/-- `Z` of SETSHAPE, SETSHIFT and SETTABLE, and `Y` of PROC: `sext_32` (R75). -/
def operandS32 (z : Word32) : Int := sext 32 z.toNat

/-- `X[15:0]` of PROC, the host pitch in U8.8: `zext` (R75). -/
def operandPitch (h : Word16) : Int := zext h.toNat

/-- `Z` of PROC, the count of frames: `zext` (R75). -/
def operandFrames (z : Word32) : Nat := z.toNat

end Sys2Proof.Machine
end

