-- ==== Sys2Proof/Machine/Phase.lean ====
section
/-! DEFINITION. The phase accumulators (spec/41_phase_accumulator.md R110 to R113). -/

namespace Sys2Proof.Machine

/-- PHADV, the generic phase advance: `wrapB(p + d)` (R110). -/
def phadv (c : Cfg) (p d : Int) : Int := wrapB c (p + d)

/-- A phase register advanced by `d` (R110). -/
def advancePhase (c : Cfg) (p : Word32) (d : Int) : Word32 := toReg (phadv c p.toNat d)

/-- DRVADV, the driver phase advance (R111). -/
def drvadv (c : Cfg) (s : State) : State :=
  { s with driverPhase := advancePhase c s.driverPhase s.driverIncrement.toNat }

/-- OUTADV, the modulated (output) phase advance, by a signed increment (R112). -/
def outadv (c : Cfg) (modInc : Int) (s : State) : State :=
  { s with outputPhase := advancePhase c s.outputPhase modInc }

/-- LFOADV, the LFO phase advance; it has no condition (R113). -/
def lfoadv (c : Cfg) (s : State) : State :=
  { s with lfoPhase := advancePhase c s.lfoPhase s.lfoIncrement.toNat }

end Sys2Proof.Machine
end

