-- ==== Sys2Proof/Machine/Wavetable.lean ====
section
/-! DEFINITION. The wavetable interpolator, the output conversion and the carrier table selection
(spec/42_wavetable_interpolator.md R120 to R123; addressing: spec/20_memory.md R52). -/

namespace Sys2Proof.Machine

/-- The table index: the top `T` bits of the phase (R120, 20_memory.md R52). -/
def waveIndex (c : Cfg) (p : Nat) : Nat := p >>> (c.B - c.T)

/-- The interpolation fraction: the next 8 bits (R120). -/
def waveFraction (c : Cfg) (p : Nat) : Nat := lowBits (p >>> (c.B - c.T - 8)) 8

/-- The cyclic successor of a table index, by masking (R120, R121). -/
def waveSuccessor (c : Cfg) (i : Nat) : Nat := lowBits (i + 1) c.T

/-- Linear interpolation from `s0` towards `s1` by the 8-bit fraction `f`, with an exact product and
an arithmetic shift (R120). -/
def interpolate (s0 s1 : Int) (f : Nat) : Int := s0 + sra ((s1 - s0) * f) 8

/-- WTLOOK, the interpolated wavetable read of table `n` at phase `p`, an s16 in SQ3.12 (R120). -/
def wtlook (c : Cfg) (n p : Nat) : Int :=
  interpolate (waveElement c n (waveIndex c p))
    (waveElement c n (waveSuccessor c (waveIndex c p))) (waveFraction c p)

/-- OUTCONV, the output conversion: clip first, then scale to Q31 (R122). -/
def outconv (s : Int) : Int := clamp s (-4096) 4095 * 2 ^ 19

/-- The clamped table index `clamp(PARAM_TABLE, 0, N - 2)` (R123). -/
def carrierOf (c : Cfg) (table : Int) : Nat := (clamp table 0 (c.N - 2)).toNat

/-- TABSEL, the carrier table selection; PARAM_TABLE itself is not modified (R123). -/
def tabsel (c : Cfg) (s : State) : State := { s with waveSel := carrierOf c s.paramTable.toInt }

end Sys2Proof.Machine
end

