-- ==== Sys2Proof/Machine/SoftClip.lean ====
section
/-! DEFINITION. The soft-clip limiter (spec/44_soft_clip_limiter.md R140; addressing:
spec/20_memory.md R53). -/

namespace Sys2Proof.Machine

/-- SOFTCLIP on a magnitude: saturation at the top of the table, else interpolation between two
neighbours (R140, 20_memory.md R53). -/
def clipMagnitude (c : Cfg) (mag : Nat) : Int :=
  if c.K - 1 ≤ mag >>> c.S then readClip c (c.K - 1)
  else interpolate (readClip c (mag >>> c.S)) (readClip c (mag >>> c.S + 1))
    (lowBits (mag >>> (c.S - 8)) 8)

/-- SOFTCLIP: magnitude, lookup, sign restored; SQ7.24 in and out (R140). The magnitude is exact, so
`-2^31` has magnitude `2^31` (40_numeric_layer.md R101). -/
def softclip (c : Cfg) (x : Int) : Int :=
  if x < 0 then -clipMagnitude c x.natAbs else clipMagnitude c x.natAbs

end Sys2Proof.Machine
end

