-- ==== Sys2Proof/Machine/Pipeline.lean ====
section
/-! DEFINITION. The audio sample pipeline: block setup steps a to e and frame steps 1 to 10
(spec/45_sample_pipeline.md R150 to R171). -/

namespace Sys2Proof.Machine

/-! ### Block setup (R150) -/

/-- PITCHCORE: U8.8 semitones to SQ7.24 octaves relative to note 69 (R151). -/
def pitchcore (h : Int) : Int := truncdiv (h * 2 ^ 16 - 69 * 2 ^ 24) 12

/-- Setup step a (R150, R151). -/
def setupPitch (hostPitch : Word16) (s : State) : State :=
  { s with pitch := toReg (pitchcore (operandPitch hostPitch)) }

/-- ROUTE's value `r = ROUTE_MIN + ((PARAM_SHAPE * ROUTE_SPAN) >> 16)`, SQ15.16 (R153). -/
def routeValue (c : Cfg) (shape : Nat) : Nat := c.routeMin + (shape * c.routeSpan) >>> 16

/-- Setup step d, ROUTE: index 0 gives the static offset, every other index the LFO depth
(R153, R134). -/
def route (c : Cfg) (idx : Nat) (s : State) : State :=
  { s with
    staticOffset := if idx = 0 then toReg (routeValue c s.paramShape.toNat) else 0
    depth := if idx = 0 then 0 else toReg (routeValue c s.paramShape.toNat) }

/-- MODDELTA: no division where the frame count is 0 (R154). -/
def moddelta (y modIn : Int) (frames : Nat) : Int :=
  if frames = 0 then 0 else truncdiv (wrap32s (y - modIn)) frames

/-- Setup step e: the modulation-input delta, and the frame counters (R150, R154, 10_state.md
R39). -/
def setupDelta (y z : Word32) (s : State) : State :=
  { s with
    modInDelta := toReg (moddelta (operandS32 y) s.modIn.toInt (operandFrames z))
    frameCnt := z
    frameIdx := 0 }

/-- The setup of a PROC, steps a to e in order (R150). -/
def procSetup (c : Cfg) (hostPitch : Word16) (y z : Word32) (s : State) : State :=
  let idx := lfoIndex s.paramShift.toNat
  setupDelta y z (route c idx (lfomap c idx (tabsel c (setupPitch hostPitch s))))

/-! ### Frame steps (R160) -/

/-- Step 1: emit the carrier's sample at the output phase as the previous frame left it (R161). -/
def frameOutput (c : Cfg) (s : State) : State :=
  emit (outconv (wtlook c s.waveSel s.outputPhase.toNat)) s

/-- Step 2: recompute the driver increment (R162; recomputed in every frame, R228). -/
def frameIncrement (c : Cfg) (s : State) : State :=
  { s with driverIncrement := c.pitchConv s.pitch }

/-- Step 5: the modulator table's sample at the driver phase just advanced (R165). -/
def modSample (c : Cfg) (s : State) : Int := wtlook c (c.N - 1) s.driverPhase.toNat

/-- Step 6, MODIDX: the raw modulation index, SQ7.24 (R167). -/
def modidx (m staticOffset lfoOut : Int) : Int := sat32 (sra (m * (staticOffset + lfoOut)) 4)

/-- Step 8, MODINC: the modulated phase increment, a signed integer (R169). -/
def modinc (driverIncrement c : Int) : Int := driverIncrement + sra (driverIncrement * c) 24

/-- MODACC's sum (R171). -/
def modaccValue (modIn modInDelta : Int) : Int := wrap32s (modIn + modInDelta)

/-- Step 10: MODACC, and one more frame completed (R171, 10_state.md R39). -/
def modacc (s : State) : State :=
  { s with
    modIn := toReg (modaccValue s.modIn.toInt s.modInDelta.toInt)
    frameIdx := s.frameIdx + 1 }

/-- The clipped modulation index of steps 5 to 7, from the LFO output of step 4 and the state after
it (R165, R167, R168). -/
def clippedIndex (c : Cfg) (lfoOut : Int) (s : State) : Int :=
  softclip c (modidx (modSample c s) s.staticOffset.toInt lfoOut)

/-- One frame: steps 1 to 10 in order (R160, R172). -/
def frame (c : Cfg) (s : State) : State :=
  let s3 := drvadv c (frameIncrement c (frameOutput c s))
  let lfoOut := lfoout c s3
  let s4 := lfoadv c s3
  let modInc := modinc s4.driverIncrement.toNat (clippedIndex c lfoOut s4)
  modacc (outadv c modInc s4)

/-- The counted loop of PROC: `n` frames, no early exit (R166). -/
def frames (c : Cfg) : Nat → State → State
  | 0, s => s
  | n + 1, s => frames c n (frame c s)

/-- PROC's whole effect: the setup, then `Z` frames (46_host_commands.md R186). -/
def procBlock (c : Cfg) (hostPitch : Word16) (y z : Word32) (s : State) : State :=
  frames c (operandFrames z) (procSetup c hostPitch y z s)

/-! ### The cached form (70_reset_and_hazards.md R228) -/

/-- A frame that trusts the driver increment already in its register: steps 1 and 3 to 10. -/
def frameCached (c : Cfg) (s : State) : State :=
  let s3 := drvadv c (frameOutput c s)
  let lfoOut := lfoout c s3
  let s4 := lfoadv c s3
  let modInc := modinc s4.driverIncrement.toNat (clippedIndex c lfoOut s4)
  modacc (outadv c modInc s4)

/-- `n` frames of the cached form. -/
def framesCached (c : Cfg) : Nat → State → State
  | 0, s => s
  | n + 1, s => framesCached c n (frameCached c s)

end Sys2Proof.Machine
end

