-- ==== Sys2Proof/Machine/Commands.lean ====
section
/-! DEFINITION. The meanings of the six commands (spec/46_host_commands.md R181 to R186). Each
executes its command to completion as one transition, as spec/10_state.md R38 allows (log 2). No
legal command can fail (spec/60_exceptions.md R200), so each answers a next state. -/

namespace Sys2Proof.Machine

/-- START: both voice phases to 0, nothing else; the LFO phase is not reset (R181, 10_state.md
R25). -/
def execStart (s : State) : Host.Outcome State Fault Refusal :=
  .next { s with driverPhase := 0, outputPhase := 0 }

/-- STOP: no state change (R182). -/
def execStop (s : State) : Host.Outcome State Fault Refusal := .next s

/-- The clip of a SETSHAPE or SETSHIFT operand into `[0, 65536]`, at set time (R183, R184). -/
def clipParam (z : Word32) : Param := BitVec.ofInt 17 (clamp (operandS32 z) 0 65536)

/-- SETSHAPE: `PARAM_SHAPE <- clamp(v, 0, 65536)` (R183). -/
def execSetshape (z : Word32) (s : State) : Host.Outcome State Fault Refusal :=
  .next { s with paramShape := clipParam z }

/-- SETSHIFT: `PARAM_SHIFT <- clamp(v, 0, 65536)` (R184). -/
def execSetshift (z : Word32) (s : State) : Host.Outcome State Fault Refusal :=
  .next { s with paramShift := clipParam z }

/-- SETTABLE: `PARAM_TABLE <- v`, raw (R185). -/
def execSettable (z : Word32) (s : State) : Host.Outcome State Fault Refusal :=
  .next { s with paramTable := toReg (operandS32 z) }

/-- PROC: the setup and `Z` frames, under the core's configuration (R186). -/
def execProc (hostPitch : Word16) (y z : Word32) (s : State) : Host.Outcome State Fault Refusal :=
  .next (procBlock Config.cfg hostPitch y z s)

end Sys2Proof.Machine
end

