-- ==== Sys2Proof/Machine/Dispatch.lean ====
section
/-! DEFINITION. One arm per command (spec/46_host_commands.md R187). -/

namespace Sys2Proof.Machine

def exec (i : Instr) (s : State) : Host.Outcome State Fault Refusal :=
  match i with
  | .start => Sys2Proof.Machine.execStart s
  | .stop => Sys2Proof.Machine.execStop s
  | .setshape z => Sys2Proof.Machine.execSetshape z s
  | .setshift z => Sys2Proof.Machine.execSetshift z s
  | .settable z => Sys2Proof.Machine.execSettable z s
  | .proc hostPitch y z => Sys2Proof.Machine.execProc hostPitch y z s

end Sys2Proof.Machine
end

