-- ==== Sys2Proof/Machine/Sequencer.lean ====
section
/-! DEFINITION. The sequencer's finer positions (spec/10_state.md R38): one numbered step of a PROC
at a time, over the same operations as Pipeline.lean (log 2). -/

namespace Sys2Proof.Machine

/-- Where the sequencer stands after the setup or after step 10: the PROC ends when
`frameIdx = frameCnt` (10_state.md R39). -/
def nextFrame (s : State) : SeqPos := if s.frameIdx = s.frameCnt then .idle else .step1

/-- Accepting a PROC, without running it: the sequencer stands before its setup (R38). -/
def acceptProc (hostPitch : Word16) (y z : Word32) (s : State) : State :=
  { s with seq := .setup hostPitch y z }

/-- The setup, or one numbered step of a frame (spec/45_sample_pipeline.md R150, R160); all of a
step's writes take effect before the next step starts (00_scope.md R13). Idle, nothing is done. -/
def advance (c : Cfg) (s : State) : State :=
  match s.seq with
  | .idle => s
  | .setup h y z => let t := procSetup c h y z s; { t with seq := nextFrame t }
  | .step1 => { frameOutput c s with seq := .step2 }
  | .step2 => { frameIncrement c s with seq := .step3 }
  | .step3 => { drvadv c s with seq := .step4 }
  | .step4 => { lfoadv c s with seq := .step5 (lfoout c s) }
  | .step5 lfoOut => { s with seq := .step6 lfoOut (modSample c s) }
  | .step6 lfoOut m => { s with seq := .step7 (modidx m s.staticOffset.toInt lfoOut) }
  | .step7 raw => { s with seq := .step8 (softclip c raw) }
  | .step8 x => { s with seq := .step9 (modinc s.driverIncrement.toNat x) }
  | .step9 modInc => { outadv c modInc s with seq := .step10 }
  | .step10 => let t := modacc s; { t with seq := nextFrame t }

end Sys2Proof.Machine
end

