-- ==== Sys2Proof/Machine/Port.lean ====
section
/-! DEFINITION. What the core does with the next thing the host presents (spec/30_encoding.md R70,
spec/46_host_commands.md R180). -/

namespace Sys2Proof.Machine

/-- An accepted word: decoded and executed to completion, or, where it is illegal, the
IllegalCommand exception (R180; 60_exceptions.md R201). -/
def acceptWord (w : CommandWord) (s : State) : Host.Outcome State Fault Refusal :=
  match decode w with
  | .ok i => exec i s
  | .error _ => .next (raiseIllegalCommand s)

/-- One step of the core. RESET is taken whatever the sequencer does (70_reset_and_hazards.md R220).
A word is accepted, and taken off the port, only when the sequencer is idle (R180). With a command
in progress the sequencer does its next numbered step and the port is not looked at. Idle with
nothing presented, all state is retained (60_exceptions.md R215). -/
def stepCore (s : State) : Host.Outcome State Fault Refusal :=
  match s.inputs, s.seq with
  | .reset :: rest, _ => .next (resetEvent { s with inputs := rest })
  | .command w :: rest, .idle => acceptWord w { s with inputs := rest }
  | [], .idle => .next s
  | _, _ => .next (advance Config.cfg s)

/-- The word of `nbits` bits `w`, the bits above them zero, presented as the next command to an idle
core; what the host presents after it stays. -/
def presentWord (s : State) (nbits w : Nat) : State :=
  { s with
    seq := .idle
    inputs := .command (BitVec.ofNat 128 (w % 2 ^ nbits)) :: s.inputs }

end Sys2Proof.Machine
end

