-- ==== Sys2Proof/Machine/Step.lean ====
section
/-! DEFINITION. The step of the machine. -/

namespace Sys2Proof.Machine

/-- One step: see `stepCore`. -/
def step (s : State) : Host.Outcome State Fault Refusal := stepCore s

/-- `s` with that word presented as the next command: see `presentWord` (log 3). -/
def State.withFetchWord (s : State) (nbits w : Nat) : State := presentWord s nbits w

end Sys2Proof.Machine
end

