-- ==== Sys2Proof/Machine/Assembler.lean ====
section
/-! DEFINITION. The assembler (spec/30_encoding.md R86, R87): from a line of text to a command
word. There are no pseudo-instructions (R87). What R86 does not say of the text is log 10. -/

namespace Sys2Proof.Machine

/-! ### From a line to a word -/

/-- The command a line stands for, each immediate as its low bits (R86). -/
def asmWord : AsmLine → CommandWord
  | .start => encode .start
  | .stop => encode .stop
  | .setshape imm => encode (.setshape (BitVec.ofInt 32 imm))
  | .setshift imm => encode (.setshift (BitVec.ofInt 32 imm))
  | .settable imm => encode (.settable (BitVec.ofInt 32 imm))
  | .proc pitch modin frames =>
    encode (.proc (BitVec.ofInt 16 pitch) (BitVec.ofInt 32 modin) (BitVec.ofInt 32 frames))
  | .word w => w

/-- The assembler emits a word, or nothing where an operand is outside its accepted range (R86). -/
def assemble (l : AsmLine) : Option CommandWord :=
  if l.wellFormed then some (asmWord l) else none

/-! ### From text to a line -/

/-- A space or a tab. -/
def isBlank (ch : Char) : Bool := ch == ' ' || ch == '\t'

/-- The text without blanks at its ends. -/
def trim (cs : List Char) : List Char :=
  ((cs.dropWhile isBlank).reverse.dropWhile isBlank).reverse

/-- The parts of a text between the separators. -/
def splitAt (sep : Char) : List Char → List (List Char)
  | [] => [[]]
  | ch :: cs =>
    match splitAt sep cs with
    | [] => [[ch]]
    | t :: ts => if ch = sep then [] :: t :: ts else (ch :: t) :: ts

/-- The value of a digit in the given base, 10 or 16. -/
def digitValue (base : Nat) (ch : Char) : Option Nat :=
  let n := ch.toNat
  let v := if 48 ≤ n ∧ n ≤ 57 then n - 48
    else if 65 ≤ n ∧ n ≤ 70 then n - 55
    else if 97 ≤ n ∧ n ≤ 102 then n - 87
    else 16
  if v < base then some v else none

/-- The number a string of digits stands for, read from the left onto `acc`. -/
def digitsFrom (base : Nat) : Nat → List Char → Option Nat
  | acc, [] => some acc
  | acc, ch :: cs =>
    match digitValue base ch with
    | some d => digitsFrom base (acc * base + d) cs
    | none => none

/-- A non-empty string of digits. -/
def parseNat (base : Nat) (cs : List Char) : Option Nat :=
  if cs.isEmpty then none else digitsFrom base 0 cs

/-- "An immediate is a decimal integer with optional leading `-`, or `0x` followed by hexadecimal
digits" (R86). -/
def parseImmediate : List Char → Option Int
  | '0' :: 'x' :: cs => (parseNat 16 cs).map Int.ofNat
  | '-' :: cs => (parseNat 10 cs).map (fun n => -Int.ofNat n)
  | cs => (parseNat 10 cs).map Int.ofNat

/-- The 32 hexadecimal digits of a `.word` directive. -/
def parseHex128 (cs : List Char) : Option CommandWord :=
  if cs.length = 32 then (parseNat 16 cs).map (BitVec.ofNat 128) else none

/-- The text before a comment (R86: "`;` starting a comment"). -/
def stripComment (cs : List Char) : List Char := cs.takeWhile (fun ch => ch != ';')

/-- The operands of a line, separated by commas. -/
def operandTexts (cs : List Char) : List (List Char) :=
  if (trim cs).isEmpty then [] else (splitAt ',' cs).map trim

/-- A line with its mnemonic and its operand texts. -/
def lineOf (mnemonic : List Char) (operands : List (List Char)) : Option AsmLine :=
  match mnemonic, operands with
  | ['S', 'T', 'A', 'R', 'T'], [] => some .start
  | ['S', 'T', 'O', 'P'], [] => some .stop
  | ['S', 'E', 'T', 'S', 'H', 'A', 'P', 'E'], [a] => (parseImmediate a).map .setshape
  | ['S', 'E', 'T', 'S', 'H', 'I', 'F', 'T'], [a] => (parseImmediate a).map .setshift
  | ['S', 'E', 'T', 'T', 'A', 'B', 'L', 'E'], [a] => (parseImmediate a).map .settable
  | ['P', 'R', 'O', 'C'], [a, b, d] =>
    match parseImmediate a, parseImmediate b, parseImmediate d with
    | some x, some y, some z => some (.proc x y z)
    | _, _, _ => none
  | ['.', 'w', 'o', 'r', 'd'], [a] => (parseHex128 a).map .word
  | _, _ => none

/-- The words of a line of text: none of them for a line that holds only blanks or a comment; an
assembler error (no result) for a line that is no command or whose operand is out of range. -/
def assembleLine (text : List Char) : Option (List CommandWord) :=
  let body := trim (stripComment text)
  if body.isEmpty then some []
  else
    match lineOf (body.takeWhile (fun ch => !isBlank ch))
        (operandTexts (body.dropWhile (fun ch => !isBlank ch))) with
    | some l => (assemble l).map (fun w => [w])
    | none => none

/-- A program's words, one command per line, in order (R86); an error in any line is an error. -/
def assembleLines : List (List Char) → Option (List CommandWord)
  | [] => some []
  | l :: ls =>
    match assembleLine l, assembleLines ls with
    | some ws, some rest => some (ws ++ rest)
    | _, _ => none

/-- A program text's words. -/
def assembleProgram (text : List Char) : Option (List CommandWord) :=
  assembleLines (splitAt '\n' text)

end Sys2Proof.Machine
end

