-- ==== Sys2Proof/Machine/Flags.lean ====
section
/-! DEFINITION. The status of the core. There is no condition code, carry, overflow, zero or sign
flag, and no operation writes or tests one (spec/10_state.md R40); the STATUS port shows one bit of
state and one function of the sequencer's position (spec/30_encoding.md R82). -/

namespace Sys2Proof.Machine

/-- `busy`: 1 exactly while the sequencer is not idle (R82). -/
def busy (s : State) : Bool := decide (s.seq ≠ .idle)

/-- The STATUS port: bit 0 is `ill`, bit 1 is `busy` (R82). -/
def status (s : State) : BitVec 2 := BitVec.ofBool (busy s) ++ BitVec.ofBool s.ill

end Sys2Proof.Machine
end

