-- ==== Sys2Proof/Safety.lean ====
section
/-! DEFINITION. The terms the claims use: the invariant of the core, what the host can observe, and
the frames an instruction leaves alone. -/

namespace Sys2Proof.Machine

/-! ### The invariant -/

/-- A phase or an increment is in `[0, 2^B)` (spec/10_state.md R27, R23, R26). -/
def inPhaseRange (c : Cfg) (p : Word32) : Prop := p.toNat < 2 ^ c.B

/-- An element of OUT: the low 19 bits are zero (spec/30_encoding.md R81). A word with them zero
lies in `[-2^31, 0x7FF80000]`. -/
def outputWord (v : Word32) : Prop := v.toNat % 2 ^ 19 = 0

/-- The sequencer stands inside a frame, at one of the steps 1 to 10. -/
def SeqPos.inFrame : SeqPos → Bool
  | .idle => false
  | .setup _ _ _ => false
  | .step1 => true
  | .step2 => true
  | .step3 => true
  | .step4 => true
  | .step5 _ => true
  | .step6 _ _ => true
  | .step7 _ => true
  | .step8 _ => true
  | .step9 _ => true
  | .step10 => true

/-- The invariant every step keeps: the ranges of spec/10_state.md R21 to R39, the exclusivity of
R31 in the form that also holds before the first PROC, and the form of an output word. -/
structure State.Inv (c : Cfg) (s : State) : Prop where
  driverPhase : inPhaseRange c s.driverPhase
  outputPhase : inPhaseRange c s.outputPhase
  lfoPhase : inPhaseRange c s.lfoPhase
  driverIncrement : inPhaseRange c s.driverIncrement
  lfoIncrement : inPhaseRange c s.lfoIncrement
  waveSel : s.waveSel ≤ c.N - 2
  staticOffset : s.staticOffset.toNat ≤ c.routeMin + c.routeSpan
  depth : s.depth.toNat ≤ c.routeMin + c.routeSpan
  exclusive : s.staticOffset = 0 ∨ s.depth = 0
  paramShape : s.paramShape.toNat ≤ 65536
  paramShift : s.paramShift.toNat ≤ 65536
  frameIdx : s.frameIdx.toNat ≤ s.frameCnt.toNat
  frameLeft : s.seq.inFrame = true → s.frameIdx.toNat < s.frameCnt.toNat
  out : ∀ v ∈ s.out, outputWord v

/-! ### What the host can observe (spec/46_host_commands.md R189) -/

/-- Two idle states that agree on everything R189 calls observable, and on what the host goes on to
present; they may differ in every other register. -/
structure State.SameToHost (s t : State) : Prop where
  driverPhase : s.driverPhase = t.driverPhase
  outputPhase : s.outputPhase = t.outputPhase
  lfoPhase : s.lfoPhase = t.lfoPhase
  paramShape : s.paramShape = t.paramShape
  paramShift : s.paramShift = t.paramShift
  paramTable : s.paramTable = t.paramTable
  ill : s.ill = t.ill
  out : s.out = t.out
  inputs : s.inputs = t.inputs
  idle : s.seq = .idle ∧ t.seq = .idle

/-! ### Frames: what stays as it was -/

/-- The three parameter registers (spec/10_state.md R37). -/
structure State.SameParams (s t : State) : Prop where
  paramShape : t.paramShape = s.paramShape
  paramShift : t.paramShift = s.paramShift
  paramTable : t.paramTable = s.paramTable

/-- The registers a PROC's setup writes, and the sequencer's counters (46_host_commands.md R186). -/
structure State.SameBlock (s t : State) : Prop where
  waveSel : t.waveSel = s.waveSel
  lfoIncrement : t.lfoIncrement = s.lfoIncrement
  pitch : t.pitch = s.pitch
  staticOffset : t.staticOffset = s.staticOffset
  depth : t.depth = s.depth
  modInDelta : t.modInDelta = s.modInDelta
  frameCnt : t.frameCnt = s.frameCnt

/-- The registers a frame writes: phases, driver increment, modulation input, frame index. -/
structure State.SameVoice (s t : State) : Prop where
  driverPhase : t.driverPhase = s.driverPhase
  outputPhase : t.outputPhase = s.outputPhase
  driverIncrement : t.driverIncrement = s.driverIncrement
  lfoPhase : t.lfoPhase = s.lfoPhase
  modIn : t.modIn = s.modIn
  frameIdx : t.frameIdx = s.frameIdx

/-- The status flag, the output stream, the sequencer and the host's inputs. -/
structure State.SameRest (s t : State) : Prop where
  ill : t.ill = s.ill
  out : t.out = s.out
  seq : t.seq = s.seq
  inputs : t.inputs = s.inputs

/-- The next thing presented is not a reset. -/
def State.noReset (s : State) : Prop := s.inputs.head? ≠ some .reset

/-- An idle core that is presented the word `w` raises IllegalCommand: `ill` becomes 1, the word is
off the port, and nothing else changes (60_exceptions.md R201). -/
def raisesIllegalCommand (w : CommandWord) : Prop :=
  ∀ (s : State) (rest : List HostInput), s.seq = .idle → s.inputs = .command w :: rest →
    step s = .next { s with ill := true, inputs := rest }

end Sys2Proof.Machine
end

