-- ==== Sys2Proof/Certificates/Slice0/Obligations.lean ====
section
/-! DEFINITION. What is claimed of the LCW2 oscillator core, one proposition each. `Config.cfg` is the
core's configuration, of which only the constraints of the type `Cfg` are known; a statement about a
datapath operation is about every configuration `c`. -/

open Sys2Proof Sys2Proof.Machine

/-! ### Reset, the step and the port -/

/-- spec/10_state.md R44: after reset every register holds the value in the table, the sequencer
is idle, and OUT is empty. -/
def Obligations.ResetLeavesTheStatedValues : Prop :=
  State.reset.driverPhase = 0 ∧ State.reset.outputPhase = 0 ∧ State.reset.driverIncrement = 0 ∧
  State.reset.waveSel = 0 ∧ State.reset.lfoPhase = 0 ∧ State.reset.lfoIncrement = 0 ∧
  State.reset.pitch = 0 ∧ State.reset.staticOffset = 0 ∧ State.reset.depth = 0 ∧
  State.reset.modIn = 0 ∧ State.reset.modInDelta = 0 ∧ State.reset.paramShape = 0 ∧
  State.reset.paramShift = 0 ∧ State.reset.paramTable = 0 ∧ State.reset.frameIdx = 0 ∧
  State.reset.frameCnt = 0 ∧ State.reset.seq = .idle ∧ State.reset.ill = false ∧
  State.reset.out = []

/-- spec/70_reset_and_hazards.md R220: asserting RESET puts every register into its reset value,
empties OUT, makes the sequencer idle and abandons a command in progress, wherever it stands. What
the host presents afterwards is the model's own field and stays (log 3). -/
def Obligations.ResetEventAbandonsEverything : Prop :=
  ∀ (s : State) (rest : List HostInput), s.inputs = .reset :: rest →
    ∃ t, step s = .next t ∧ t.inputs = rest ∧ { t with inputs := [] } = State.reset

/-- spec/70_reset_and_hazards.md R221, the spec's own inference from R44 and R181: a PROC right
after reset behaves exactly like START followed by that PROC, plays carrier 0 with the LFO
disabled and the static offset at ROUTE_MIN. -/
def Obligations.ProcAfterResetIsStartThenProc : Prop :=
  ∀ (h : Word16) (y z : Word32), ∃ s1 t,
    exec .start State.reset = .next s1 ∧ exec (.proc h y z) s1 = .next t ∧
    exec (.proc h y z) State.reset = .next t ∧ t.waveSel = 0 ∧ t.depth = 0 ∧
    t.staticOffset.toInt = Config.cfg.routeMin

/-- spec/46_host_commands.md R180: a word presented to an idle core is decoded and executed; the
step is exec of the decoded command, with the word taken off the port. -/
def Obligations.StepRunsTheDecodedCommand : Prop :=
  ∀ (s : State) (w : CommandWord) (rest : List HostInput) (i : Instr),
    s.seq = .idle → s.inputs = .command w :: rest → decode w = .ok i → i.wellFormed = true →
    step s = exec i { s with inputs := rest }

/-- spec/60_exceptions.md R215: idle with nothing presented, all state is retained. That such a
step is a next state is the model's reading (log 3). -/
def Obligations.IdleCoreRetainsItsState : Prop :=
  ∀ s : State, s.seq = .idle → s.inputs = [] → step s = .next s

/-- spec/46_host_commands.md R180: while a command is in progress the port is not looked at: the
step gives the same state whatever word is held there, and the word stays there. -/
def Obligations.BusyCoreLeavesThePortAlone : Prop :=
  ∀ (s : State) (w : CommandWord) (rest : List HostInput), busy s = true →
    s.inputs = .command w :: rest →
    ∃ t, step s = .next t ∧ t.inputs = s.inputs ∧
      step { s with inputs := [] } = .next { t with inputs := [] }

/-- 93_implementation_defined.md, end of section 1: after every input, legal or not, there is a
successor state; no step faults and none refuses. -/
def Obligations.StepAlwaysAnswersANextState : Prop :=
  ∀ s : State, ∃ t, step s = .next t

/-- spec/60_exceptions.md R200: no legal command and no datapath operation raises an exception or
a fault of any kind: a command answers a next state in which `ill` is as before, and no numbered
step of a PROC writes `ill`, under any configuration. -/
def Obligations.LegalCommandsRaiseNothing : Prop :=
  (∀ (i : Instr) (s : State), ∃ t, exec i s = .next t ∧ t.ill = s.ill) ∧
  ∀ (c : Cfg) (s : State), (advance c s).ill = s.ill

/-- spec/30_encoding.md R82: STATUS bit 0 is `ill`, bit 1 is 1 exactly while the sequencer is not
idle. -/
def Obligations.StatusPortShowsIllAndBusy : Prop :=
  ∀ s : State, (status s).getLsbD 0 = s.ill ∧ ((status s).getLsbD 1 = true ↔ s.seq ≠ .idle)

/-! ### Decoding and encoding -/

/-- Words of 95_test_vectors.md section 4 decode as it says. -/
def Obligations.SpecWordsDecode : Prop :=
  decode 0x01000000000000000000000000000000#128 = .ok .start ∧
  decode 0x02000000000000000000000000000000#128 = .ok .stop ∧
  decode 0x030000000000000000000000FFFF8000#128 = .ok (.setshape (-32768)) ∧
  decode 0x04000000000000000000000000010000#128 = .ok (.setshift 0x10000) ∧
  decode 0x050000000000000000000000FFFFFFFB#128 = .ok (.settable (-5)) ∧
  decode 0x06000000000045000000100000000004#128 = .ok (.proc 0x4500 0x1000 4) ∧
  decode 0x060000000000FFFFFFFFFFFFFFFFFFFF#128 = .ok (.proc 0xFFFF (-1) 0xFFFFFFFF)

/-- spec/30_encoding.md R76: a word is a row's command exactly when `w & mask = match`, with the
operands of R73 to R75, the rows are disjoint, and every other word is illegal. -/
def Obligations.DecodeIsTheOpcodeMap : Prop :=
  (∀ w : CommandWord,
    (rowStart.covers w = true → decode w = .ok .start) ∧
    (rowStop.covers w = true → decode w = .ok .stop) ∧
    (rowSetshape.covers w = true → decode w = .ok (.setshape (w.extractLsb' 0 32))) ∧
    (rowSetshift.covers w = true → decode w = .ok (.setshift (w.extractLsb' 0 32))) ∧
    (rowSettable.covers w = true → decode w = .ok (.settable (w.extractLsb' 0 32))) ∧
    (rowProc.covers w = true →
      decode w = .ok (.proc (w.extractLsb' 64 16) (w.extractLsb' 32 32) (w.extractLsb' 0 32))) ∧
    (legalWord w = false → ∃ e, decode w = .error e)) ∧
  (∀ (w : CommandWord) (i : Instr), decode w = .ok i → i.row.covers w = true) ∧
  (∀ (w : CommandWord) (r r' : OpcodeRow), r ∈ opcodeMap → r' ∈ opcodeMap →
    r.covers w = true → r'.covers w = true → r = r')

/-- spec/30_encoding.md R77: the illegal words are exactly those with a reserved opcode or a
must-be-zero bit set; presented to an idle core they raise IllegalCommand; all-zero and all-ones
are among them; a legal word is one for every value of its operands. -/
def Obligations.IllegalWordsRaiseIllegalCommand : Prop :=
  (∀ w : CommandWord,
    let op := (w.extractLsb' 120 8).toNat
    let illegal : Prop := op = 0 ∨ 7 ≤ op ∨ w.extractLsb' 96 24 ≠ 0 ∨
      (op ≤ 5 ∧ (w.extractLsb' 64 32 ≠ 0 ∨ w.extractLsb' 32 32 ≠ 0)) ∨
      (op ≤ 2 ∧ w.extractLsb' 0 32 ≠ 0) ∨ (op = 6 ∧ w.extractLsb' 80 16 ≠ 0)
    (illegal → raisesIllegalCommand w) ∧ (¬ illegal → ∃ i, decode w = .ok i)) ∧
  raisesIllegalCommand 0 ∧ raisesIllegalCommand (BitVec.allOnes 128)

/-- Decode and encode agree on every instruction, as a word and as the 16 bytes it is carried in
(spec/30_encoding.md R71 to R76, R85). -/
def Obligations.DecodeOfEncodeIsIdentity : Prop :=
  ∀ i : Instr, i.wellFormed = true →
    decode (encode i) = .ok i ∧ decodeBytes (bytesOfWord (encode i)) = .ok i

/-- A legal word is the encoding of the command it decodes to: no legal word has a bit the command
does not hold (spec/30_encoding.md R76, R87). -/
def Obligations.LegalWordIsEncodingOfItsCommand : Prop :=
  ∀ (w : CommandWord) (i : Instr), decode w = .ok i → encode i = w

/-- spec/30_encoding.md R85: a word carried as 16 bytes or as four 32-bit words, little-endian,
and read back. -/
def Obligations.WordIsCarriedLittleEndian : Prop :=
  ∀ w : CommandWord,
    (bytesOfWord w).length = 16 ∧
    (∀ k, k < 16 → (bytesOfWord w)[k]? = some (w.extractLsb' (8 * k) 8)) ∧
    wordOfBytes (bytesOfWord w) = some w ∧
    wordsOfWord w =
      [w.extractLsb' 0 32, w.extractLsb' 32 32, w.extractLsb' 64 32, w.extractLsb' 96 32]

/-- spec/30_encoding.md R86: the assembler emits a legal word for every line but `.word`, and
emits nothing exactly where an operand is outside its accepted range. -/
def Obligations.AssemblerEmitsOnlyLegalWords : Prop :=
  (∀ (l : AsmLine) (w : CommandWord), (∀ v, l ≠ .word v) → assemble l = some w →
    legalWord w = true) ∧
  (∀ imm : Int, (∃ w, assemble (.setshape imm) = some w) ↔ -2 ^ 31 ≤ imm ∧ imm ≤ 2 ^ 32 - 1) ∧
  (∀ imm : Int, (∃ w, assemble (.setshift imm) = some w) ↔ -2 ^ 31 ≤ imm ∧ imm ≤ 2 ^ 32 - 1) ∧
  (∀ imm : Int, (∃ w, assemble (.settable imm) = some w) ↔ -2 ^ 31 ≤ imm ∧ imm ≤ 2 ^ 32 - 1) ∧
  (∀ a b d : Int, (∃ w, assemble (.proc a b d) = some w) ↔
    (0 ≤ a ∧ a ≤ 65535) ∧ (-2 ^ 31 ≤ b ∧ b ≤ 2 ^ 32 - 1) ∧ (0 ≤ d ∧ d ≤ 2 ^ 32 - 1))

/-! ### START, STOP and the SET commands -/

/-- spec/46_host_commands.md R181: START zeroes the two voice phases and changes nothing else;
with an operand bit set it is illegal and the phases stay. -/
def Obligations.StartZeroesTheVoicePhases : Prop :=
  (∀ s : State, ∃ t, exec .start s = .next t ∧
    t.driverPhase = 0 ∧ t.outputPhase = 0 ∧
    t.driverIncrement = s.driverIncrement ∧ t.lfoPhase = s.lfoPhase ∧ t.modIn = s.modIn ∧
    t.frameIdx = s.frameIdx ∧ s.SameBlock t ∧ s.SameParams t ∧ s.SameRest t) ∧
  (∀ w : CommandWord, w.extractLsb' 120 8 = 0x01 → w.extractLsb' 0 120 ≠ 0 →
    raisesIllegalCommand w)

/-- spec/46_host_commands.md R182: STOP changes no state; with an operand bit set it is illegal.
-/
def Obligations.StopChangesNothing : Prop :=
  (∀ s : State, exec .stop s = .next s) ∧
  (∀ w : CommandWord, w.extractLsb' 120 8 = 0x02 → w.extractLsb' 0 120 ≠ 0 →
    raisesIllegalCommand w)

/-- spec/46_host_commands.md R183: SETSHAPE stores its signed operand clamped to 0 .. 65536 and
changes nothing else; it is illegal only for a must-be-zero bit. -/
def Obligations.SetshapeStoresTheClippedOperand : Prop :=
  (∀ (z : Word32) (s : State), ∃ t, exec (.setshape z) s = .next t ∧
    (t.paramShape.toNat : Int) =
      (if z.toInt < 0 then 0 else if 65536 < z.toInt then 65536 else z.toInt) ∧
    t.paramShift = s.paramShift ∧ t.paramTable = s.paramTable ∧
    s.SameVoice t ∧ s.SameBlock t ∧ s.SameRest t) ∧
  (∀ w : CommandWord, w.extractLsb' 120 8 = 0x03 → w.extractLsb' 32 88 ≠ 0 →
    raisesIllegalCommand w)

/-- spec/46_host_commands.md R184: SETSHIFT, the same for PARAM_SHIFT. -/
def Obligations.SetshiftStoresTheClippedOperand : Prop :=
  (∀ (z : Word32) (s : State), ∃ t, exec (.setshift z) s = .next t ∧
    (t.paramShift.toNat : Int) =
      (if z.toInt < 0 then 0 else if 65536 < z.toInt then 65536 else z.toInt) ∧
    t.paramShape = s.paramShape ∧ t.paramTable = s.paramTable ∧
    s.SameVoice t ∧ s.SameBlock t ∧ s.SameRest t) ∧
  (∀ w : CommandWord, w.extractLsb' 120 8 = 0x04 → w.extractLsb' 32 88 ≠ 0 →
    raisesIllegalCommand w)

/-- spec/46_host_commands.md R185: SETTABLE stores its operand raw and changes nothing else. -/
def Obligations.SettableStoresTheRawOperand : Prop :=
  (∀ (z : Word32) (s : State), ∃ t, exec (.settable z) s = .next t ∧
    t.paramTable = z ∧ t.paramShape = s.paramShape ∧ t.paramShift = s.paramShift ∧
    s.SameVoice t ∧ s.SameBlock t ∧ s.SameRest t) ∧
  (∀ w : CommandWord, w.extractLsb' 120 8 = 0x05 → w.extractLsb' 32 88 ≠ 0 →
    raisesIllegalCommand w)

/-- spec/46_host_commands.md R188, the spec's own inference from R183 to R185: a SET command
issued twice leaves the state of issuing it once. -/
def Obligations.SetCommandsAreIdempotent : Prop :=
  ∀ (i : Instr) (z : Word32) (s : State),
    (i = .setshape z ∨ i = .setshift z ∨ i = .settable z) →
    ∃ t, exec i s = .next t ∧ exec i t = .next t

/-- spec/70_reset_and_hazards.md R225, the spec's own inference from R181 to R185: START and the
three SET commands commute with one another. -/
def Obligations.StartAndSetCommandsCommute : Prop :=
  ∀ (i j : Instr) (s : State),
    (i = .start ∨ (∃ z, i = .setshape z) ∨ (∃ z, i = .setshift z) ∨ ∃ z, i = .settable z) →
    (j = .start ∨ (∃ z, j = .setshape z) ∨ (∃ z, j = .setshift z) ∨ ∃ z, j = .settable z) →
    i.row ≠ j.row →
    ∃ si sj t, exec i s = .next si ∧ exec j si = .next t ∧ exec j s = .next sj ∧
      exec i sj = .next t

/-! ### PROC: what the setup leaves -/

/-- spec/45_sample_pipeline.md R151: PROC's setup writes the core pitch, semitones in U8.8
relative to note 69 divided by 12 toward zero, in SQ7.24. -/
def Obligations.ProcWritesTheCorePitch : Prop :=
  ∀ (h : Word16) (y z : Word32) (s : State), ∃ t, exec (.proc h y z) s = .next t ∧
    t.pitch.toInt = Int.tdiv ((h.toNat : Int) * 65536 - 69 * 16777216) 12 ∧
    -96468992 ≤ t.pitch.toInt ∧ t.pitch.toInt ≤ 261439488

/-- spec/42_wavetable_interpolator.md R123: PROC's setup selects the carrier by clamping the
stored index into 0 .. N - 2, and leaves the stored index as it was. -/
def Obligations.ProcSelectsTheClampedCarrier : Prop :=
  ∀ (h : Word16) (y z : Word32) (s : State), ∃ t, exec (.proc h y z) s = .next t ∧
    (t.waveSel : Int) =
      (if s.paramTable.toInt < 0 then 0
       else if (Config.cfg.N : Int) - 2 < s.paramTable.toInt then (Config.cfg.N : Int) - 2
       else s.paramTable.toInt) ∧
    t.paramTable = s.paramTable

/-- spec/43_lfo_subsystem.md R130: PROC's setup scales PARAM_SHIFT to an index with rounding, and
the LFO increment is the delta table's entry at it. -/
def Obligations.ProcLooksUpTheLfoRate : Prop :=
  ∀ (h : Word16) (y z : Word32) (s : State), ∃ t, exec (.proc h y z) s = .next t ∧
    Config.cfg.lfoDelta[min ((s.paramShift.toNat * 47 + 32768) / 65536) 47]? = some t.lfoIncrement

/-- spec/45_sample_pipeline.md R153 and R130, and R155, the spec's own inference from them: PROC's
setup routes the shape value `r` to the static offset where the LFO index is 0 (PARAM_SHIFT at
most 697) and to the depth otherwise, the other being 0; `r` is at least 1, so exactly one is
non-zero. -/
def Obligations.ProcRoutesExactlyOneModulation : Prop :=
  ∀ (h : Word16) (y z : Word32) (s : State), s.paramShape.toNat ≤ 65536 →
    let r := Config.cfg.routeMin + s.paramShape.toNat * Config.cfg.routeSpan / 65536
    1 ≤ r ∧ r ≤ Config.cfg.routeMin + Config.cfg.routeSpan ∧
    ∃ t, exec (.proc h y z) s = .next t ∧
      (s.paramShift.toNat ≤ 697 → t.staticOffset.toInt = r ∧ t.depth = 0) ∧
      (697 < s.paramShift.toNat → t.staticOffset = 0 ∧ t.depth.toInt = r)

/-- spec/45_sample_pipeline.md R154: PROC's setup writes the modulation-input delta, the wrapped
difference divided by the frame count toward zero, and 0 where the frame count is 0. -/
def Obligations.ProcWritesTheModulationDelta : Prop :=
  ∀ (h : Word16) (y z : Word32) (s : State), ∃ t, exec (.proc h y z) s = .next t ∧
    (z = 0 → t.modInDelta = 0) ∧
    (z ≠ 0 → t.modInDelta.toInt = Int.tdiv (y - s.modIn).toInt z.toNat)

/-! ### PROC: what the frames leave -/

/-- spec/46_host_commands.md R186: PROC appends exactly `Z` samples, ends with `frameIdx =
frameCnt = Z`, and writes no parameter register, not `ill`, and nothing the host presents. Every
other register may change; the statements about PROC say how. -/
def Obligations.ProcEmitsOneSamplePerFrame : Prop :=
  ∀ (h : Word16) (y z : Word32) (s : State), ∃ t l, exec (.proc h y z) s = .next t ∧
    t.out = s.out ++ l ∧ l.length = z.toNat ∧ t.frameCnt = z ∧ t.frameIdx = z ∧
    s.SameParams t ∧ t.ill = s.ill ∧ t.seq = s.seq ∧ t.inputs = s.inputs

/-- spec/46_host_commands.md R186, R154: a PROC of no frames performs the setup only. -/
def Obligations.ProcOfZeroFramesIsSetupOnly : Prop :=
  ∀ (h : Word16) (y : Word32) (s : State), ∃ t, exec (.proc h y 0) s = .next t ∧
    t.driverPhase = s.driverPhase ∧ t.outputPhase = s.outputPhase ∧ t.lfoPhase = s.lfoPhase ∧
    t.driverIncrement = s.driverIncrement ∧ t.modIn = s.modIn ∧ t.out = s.out ∧
    t.modInDelta = 0 ∧ t.frameCnt = 0 ∧ t.frameIdx = 0 ∧ s.SameParams t ∧ t.ill = s.ill ∧
    t.seq = s.seq ∧ t.inputs = s.inputs ∧
    t.pitch.toInt = Int.tdiv ((h.toNat : Int) * 65536 - 69 * 16777216) 12

/-- spec/41_phase_accumulator.md R114 for a block: after `Z` frames the driver phase and the LFO
phase have advanced by `Z` times their increments, wrapped once; the driver increment is
PITCH_CONV of the block's pitch. That the driver increment is the same in every frame is the
spec's own inference in R162. -/
def Obligations.ProcAdvancesTheFreePhasesLinearly : Prop :=
  ∀ (h : Word16) (y z : Word32) (s : State), inPhaseRange Config.cfg s.driverPhase →
    inPhaseRange Config.cfg s.lfoPhase →
    ∃ t, exec (.proc h y z) s = .next t ∧
      t.driverPhase.toNat =
        (s.driverPhase.toNat + z.toNat * (Config.cfg.pitchConv t.pitch).toNat) %
          2 ^ Config.cfg.B ∧
      t.lfoPhase.toNat =
        (s.lfoPhase.toNat + z.toNat * t.lfoIncrement.toNat) % 2 ^ Config.cfg.B ∧
      (z ≠ 0 → t.driverIncrement = Config.cfg.pitchConv t.pitch)

/-- spec/45_sample_pipeline.md R171 for a block: the accumulator ends at `start + Z * delta` in
32-bit arithmetic, and what is missing to `Y` is the remainder of the division. -/
def Obligations.ProcAccumulatesTheModulationInput : Prop :=
  ∀ (h : Word16) (y z : Word32) (s : State), ∃ t, exec (.proc h y z) s = .next t ∧
    t.modIn = s.modIn + z * t.modInDelta ∧
    (z ≠ 0 → (y - t.modIn).toInt = Int.tmod (y - s.modIn).toInt z.toNat)

/-- spec/45_sample_pipeline.md R160, R172: a PROC of one frame, written out: the sample is read at
the OLD output phase, the modulator at the NEW driver phase, the triangle at the OLD LFO phase,
and the output phase advances by the increment times one plus the clipped index. -/
def Obligations.OneFrameFollowsTheStepOrder : Prop :=
  ∀ (h : Word16) (y : Word32) (s : State), ∃ t, exec (.proc h y 1) s = .next t ∧
    let c := Config.cfg
    let inc := c.pitchConv t.pitch
    let driver := phadv c s.driverPhase.toNat inc.toNat
    let lfoOut := trigen c s.lfoPhase.toNat * t.depth.toInt / 4096
    let m := wtlook c (c.N - 1) driver.toNat
    let index := softclip c (modidx m t.staticOffset.toInt lfoOut)
    t.out = s.out ++ [BitVec.ofInt 32 (outconv (wtlook c t.waveSel s.outputPhase.toNat))] ∧
    t.driverIncrement = inc ∧
    (t.driverPhase.toNat : Int) = driver ∧
    (t.lfoPhase.toNat : Int) = phadv c s.lfoPhase.toNat t.lfoIncrement.toNat ∧
    (t.outputPhase.toNat : Int) =
      phadv c s.outputPhase.toNat (inc.toNat + inc.toNat * index / 16777216)

/-- spec/42_wavetable_interpolator.md R125, the spec's own inference from R120, R181 and R186:
after a START the first sample of a PROC of at least one frame is the carrier's element 0,
converted, whatever the state was. -/
def Obligations.FirstSampleAfterStartIsElementZero : Prop :=
  ∀ (h : Word16) (y z : Word32) (s : State), z ≠ 0 →
    ∃ s1 t e l, exec .start s = .next s1 ∧ exec (.proc h y z) s1 = .next t ∧
      Config.cfg.wave[t.waveSel * 2 ^ Config.cfg.T]? = some e ∧
      t.out = s.out ++ BitVec.ofInt 32 (outconv e.toInt) :: l

/-- spec/46_host_commands.md R186: splitting a PROC of `Z1 + Z2` frames into two with the same
pitch gives the same samples and the same phases. -/
def Obligations.SplittingABlockKeepsSamplesAndPhases : Prop :=
  ∀ (h : Word16) (y y1 y2 z z1 z2 : Word32) (s : State), z1.toNat + z2.toNat = z.toNat →
    ∃ t s1 t', exec (.proc h y z) s = .next t ∧ exec (.proc h y1 z1) s = .next s1 ∧
      exec (.proc h y2 z2) s1 = .next t' ∧ t'.out = t.out ∧ t'.driverPhase = t.driverPhase ∧
      t'.outputPhase = t.outputPhase ∧ t'.lfoPhase = t.lfoPhase

/-- spec/70_reset_and_hazards.md R228, the spec's own inference from R150 and R162: computing the
driver increment once for a block of at least one frame gives exactly the state of recomputing it
in every frame. -/
def Obligations.CachedIncrementIsEquivalent : Prop :=
  ∀ (h : Word16) (y z : Word32) (s : State), z ≠ 0 →
    exec (.proc h y z) s =
      .next (framesCached Config.cfg z.toNat
        (frameIncrement Config.cfg (procSetup Config.cfg h y z s)))

/-- spec/10_state.md R38, spec/46_host_commands.md R180: a PROC accepted and run by the numbered
steps of the sequencer, one a step of the machine, is busy for `1 + 10 Z` steps, takes nothing off
the port meanwhile, and then stands idle in exactly the state the command gives as one transition.
That the model runs a PROC on an idle core as one transition, with the numbered steps beside it,
is the model's choice, which R38 allows (log 2). -/
def Obligations.NumberedStepsRefineTheBlock : Prop :=
  ∀ (h : Word16) (y z : Word32) (s : State), s.seq = .idle → s.noReset →
    (∃ t, exec (.proc h y z) s = .next t ∧
      Sys2Proof.core.run (1 + 10 * z.toNat) (acceptProc h y z s) = .next t) ∧
    (∀ k, k < 1 + 10 * z.toNat → ∃ u, Sys2Proof.core.run k (acceptProc h y z s) = .next u ∧
      busy u = true ∧ u.inputs = s.inputs)

/-! ### The datapath operations -/

/-- spec/41_phase_accumulator.md R110: the phase advance and its corner cases. -/
def Obligations.PhaseAdvanceWraps : Prop :=
  ∀ (c : Cfg) (p d : Int), 0 ≤ p → p < 2 ^ c.B →
    0 ≤ phadv c p d ∧ phadv c p d < 2 ^ c.B ∧ (∃ k : Int, phadv c p d = p + d + k * 2 ^ c.B) ∧
    phadv c p 0 = p ∧ (p + d = 2 ^ c.B → phadv c p d = 0) ∧ phadv c 0 (-1) = 2 ^ c.B - 1

/-- spec/41_phase_accumulator.md R114: wrapping after every advance is wrapping once at the end.
-/
def Obligations.PhaseAdvancesAccumulate : Prop :=
  ∀ (c : Cfg) (p : Int) (ds : List Int), 0 ≤ p → p < 2 ^ c.B →
    ds.foldl (phadv c) p = wrapB c (p + ds.sum) ∧
    0 ≤ ds.foldl (phadv c) p ∧ ds.foldl (phadv c) p < 2 ^ c.B

/-- spec/42_wavetable_interpolator.md R120, R121, spec/20_memory.md R52: the interpolated read:
two neighbouring elements of table `n`, the successor of the last being element 0; linear by the
8-bit fraction, rounded down; the result lies between them. That it lies between them is the
spec's own inference in R120. -/
def Obligations.WavetableReadInterpolates : Prop :=
  ∀ (c : Cfg) (n p : Nat), n < c.N → p < 2 ^ c.B →
    let i0 := p / 2 ^ (c.B - c.T)
    let f := p / 2 ^ (c.B - c.T - 8) % 256
    i0 < 2 ^ c.T ∧
    ∃ s0 s1, c.wave[n * 2 ^ c.T + i0]? = some s0 ∧
      c.wave[n * 2 ^ c.T + (if i0 = 2 ^ c.T - 1 then 0 else i0 + 1)]? = some s1 ∧
      wtlook c n p = s0.toInt + (s1.toInt - s0.toInt) * f / 256 ∧
      min s0.toInt s1.toInt ≤ wtlook c n p ∧ wtlook c n p ≤ max s0.toInt s1.toInt ∧
      (f = 0 → wtlook c n p = s0.toInt)

/-- spec/42_wavetable_interpolator.md R122, spec/30_encoding.md R81: the output conversion clips
to [-4096, 4095] and scales by 2^19; the word has its low 19 bits zero and lies in [-2^31,
0x7FF80000]. -/
def Obligations.OutputConversionClipsAndScales : Prop :=
  ∀ s : Int, -32768 ≤ s → s ≤ 32767 →
    outconv s = (if s < -4096 then -4096 else if 4095 < s then 4095 else s) * 524288 ∧
    (BitVec.ofInt 32 (outconv s)).toInt = outconv s ∧
    outputWord (BitVec.ofInt 32 (outconv s)) ∧
    -2147483648 ≤ outconv s ∧ outconv s ≤ 0x7FF80000

/-- spec/43_lfo_subsystem.md R130: the index map rounds to nearest, is monotonic, stays in 0 .. 47
and has the thresholds the rule lists. -/
def Obligations.LfoIndexRoundsToNearest : Prop :=
  (∀ v : Nat, v ≤ 65536 → lfoIndex v = (v * 47 + 32768) / 65536 ∧ lfoIndex v ≤ 47 ∧
    (lfoIndex v = 0 ↔ v ≤ 697) ∧ (lfoIndex v ≤ 1 ↔ v ≤ 2091) ∧ (lfoIndex v = 47 ↔ 64839 ≤ v)) ∧
  (∀ v v' : Nat, v ≤ v' → v' ≤ 65536 → lfoIndex v ≤ lfoIndex v')

/-- spec/10_state.md R26, spec/43_lfo_subsystem.md R131: a larger index selects a strictly larger
LFO increment, below `2^B`. -/
def Obligations.LfoRateGrowsWithTheIndex : Prop :=
  ∀ (c : Cfg) (i j : Nat), i < j → j ≤ 47 →
    (readLfoDelta c i).toNat < (readLfoDelta c j).toNat ∧ (readLfoDelta c j).toNat < 2 ^ c.B

/-- spec/43_lfo_subsystem.md R132: the triangle: its two halves, its range, its values at the
quarter points and ends, and continuity within one output step, also across the wrap. -/
def Obligations.TriangleFallsThenRises : Prop :=
  ∀ c : Cfg,
    (∀ p : Nat, p < 2 ^ (c.B - 1) → trigen c p = 4096 - ((p / 2 ^ (c.B - 14) : Nat) : Int)) ∧
    (∀ p : Nat, 2 ^ (c.B - 1) ≤ p → p < 2 ^ c.B →
      trigen c p = -4096 + (((p - 2 ^ (c.B - 1)) / 2 ^ (c.B - 14) : Nat) : Int)) ∧
    (∀ p : Nat, p < 2 ^ c.B → -4096 ≤ trigen c p ∧ trigen c p ≤ 4096 ∧
      |trigen c ((p + 1) % 2 ^ c.B) - trigen c p| ≤ 1) ∧
    trigen c 0 = 4096 ∧ trigen c (2 ^ (c.B - 1) - 1) = -4095 ∧
    trigen c (2 ^ (c.B - 1)) = -4096 ∧ trigen c (2 ^ c.B - 1) = 4095 ∧
    trigen c (2 ^ (c.B - 2)) = 0 ∧ trigen c (3 * 2 ^ (c.B - 2)) = 0

/-- spec/43_lfo_subsystem.md R133: the LFO output is the triangle before the advance times the
depth, rounded down; its magnitude is at most the depth, which it reaches at both ends. That the
magnitude is at most the depth is the spec's own inference in R133. -/
def Obligations.LfoOutputIsBoundedByDepth : Prop :=
  ∀ (c : Cfg) (s : State), inPhaseRange c s.lfoPhase → 0 ≤ s.depth.toInt →
    lfoout c s = trigen c s.lfoPhase.toNat * s.depth.toInt / 4096 ∧
    |lfoout c s| ≤ s.depth.toInt ∧
    (s.depth = 0 → lfoout c s = 0) ∧
    (trigen c s.lfoPhase.toNat = 4096 → lfoout c s = s.depth.toInt) ∧
    (trigen c s.lfoPhase.toNat = -4096 → lfoout c s = -s.depth.toInt)

/-- spec/44_soft_clip_limiter.md R140: the limiter: magnitude, saturation at the table's top or
interpolation between two neighbours, sign restored. -/
def Obligations.SoftClipInterpolatesItsTable : Prop :=
  ∀ (c : Cfg) (x : Int), -2 ^ 31 ≤ x → x < 2 ^ 31 →
    let j := x.natAbs / 2 ^ c.S
    let f := x.natAbs / 2 ^ (c.S - 8) % 256
    ∃ y : Int, softclip c x = (if x < 0 then -y else y) ∧
      (c.K - 1 ≤ j → ∃ top, c.clip[c.K - 1]? = some top ∧ y = top.toInt) ∧
      (j < c.K - 1 → ∃ a b, c.clip[j]? = some a ∧ c.clip[j + 1]? = some b ∧
        y = a.toInt + (b.toInt - a.toInt) * f / 256)

/-- spec/44_soft_clip_limiter.md R142, the spec's own inference from R140 and R141: odd symmetry,
monotonicity, saturation and the bound; and the value at `-2^31`, which R142 gives for every
configuration and the pseudocode of R140 only where the table's covered range ends by `2^31` (log
11). -/
def Obligations.SoftClipIsOddMonotoneAndBounded : Prop :=
  ∀ c : Cfg, ∃ top, c.clip[c.K - 1]? = some top ∧ 0 ≤ top.toInt ∧
    (∀ x : Int, softclip c (-x) = -softclip c x) ∧
    (∀ x x' : Int, x ≤ x' → softclip c x ≤ softclip c x') ∧
    (∀ x : Int, ((c.K : Int) - 1) * 2 ^ c.S ≤ |x| → |softclip c x| = top.toInt) ∧
    (((c.K : Int) - 1) * 2 ^ c.S ≤ 2 ^ 31 → softclip c (-2 ^ 31) = -top.toInt) ∧
    (∀ x : Int, |softclip c x| ≤ top.toInt)

/-- spec/45_sample_pipeline.md R167: the raw index is the product rounded down to SQ7.24 and
saturated to 32 bits. -/
def Obligations.RawIndexSaturates : Prop :=
  ∀ m staticOffset lfoOut : Int,
    let v := m * (staticOffset + lfoOut) / 16
    (v < -2147483648 → modidx m staticOffset lfoOut = -2147483648) ∧
    (2147483647 < v → modidx m staticOffset lfoOut = 2147483647) ∧
    (-2147483648 ≤ v → v ≤ 2147483647 → modidx m staticOffset lfoOut = v) ∧
    modidx 0 staticOffset lfoOut = 0

/-- 95_test_vectors.md section 1 item 8 (scenario B), from R153, R133 and R167: with the LFO
enabled, the magnitude of the raw index does not fall as the shape grows, and the clipped index
never exceeds the limiter's saturation value. The bound is R142 (d), the spec's own inference. -/
def Obligations.IndexMagnitudeGrowsWithShape : Prop :=
  ∀ (c : Cfg) (m w : Int) (shape shape' : Nat), shape ≤ shape' → shape' ≤ 65536 →
    |modidx m 0 (lfoScale w (routeValue c shape))| ≤
      |modidx m 0 (lfoScale w (routeValue c shape'))| ∧
    ∃ top, c.clip[c.K - 1]? = some top ∧
      |softclip c (modidx m 0 (lfoScale w (routeValue c shape')))| ≤ top.toInt

/-- spec/45_sample_pipeline.md R169: the modulated increment and its corner cases. -/
def Obligations.ModulatedIncrementIsSigned : Prop :=
  ∀ d x : Int, 0 ≤ d → d < 2 ^ 32 → -2 ^ 31 < x → x < 2 ^ 31 →
    modinc d x = d + d * x / 16777216 ∧ |modinc d x| < 2 ^ 40 ∧
    modinc d 0 = d ∧ modinc 0 x = 0 ∧ modinc d (-16777216) = 0 ∧
    (x < -16777216 → 0 < d → modinc d x < 0)

/-! ### Invariants and whole-machine rules -/

/-- The state after reset satisfies the invariant. -/
def Obligations.ResetSatisfiesTheInvariant : Prop := State.reset.Inv Config.cfg

/-- Every step keeps the invariant (spec/10_state.md R24, R26, R27, R29 to R31, R34, R35, R39;
spec/30_encoding.md R81). -/
def Obligations.EveryStepKeepsTheInvariant : Prop :=
  ∀ s t : State, s.Inv Config.cfg → step s = .next t → t.Inv Config.cfg

/-- spec/46_host_commands.md R189, the spec's own inference from R20, R150 and R160: two idle
states that agree on the two voice phases, the LFO phase, the parameters, `ill` and OUT cannot be
told apart by any sequence of inputs, whatever the hidden registers hold. -/
def Obligations.HiddenRegistersAreUnobservable : Prop :=
  ∀ (k : Nat) (s t : State), s.SameToHost t →
    ∃ s' t', Sys2Proof.core.run k s = .next s' ∧ Sys2Proof.core.run k t = .next t' ∧
      s'.SameToHost t' ∧ status s' = status t'

/-- spec/60_exceptions.md R205 and R201: `ill` stays 1 until reset, and only an illegal word
accepted by an idle core makes it 1. -/
def Obligations.IllIsStickyAndOnlyIllegalWordsSetIt : Prop :=
  ∀ s t : State, step s = .next t → s.noReset →
    (s.ill = true → t.ill = true) ∧
    (s.ill = false → t.ill = true →
      s.seq = .idle ∧ ∃ w rest, s.inputs = .command w :: rest ∧ legalWord w = false)

/-- spec/10_state.md R41: OUT is append-only: no step but a reset removes or rewrites an element.
-/
def Obligations.OutputStreamIsAppendOnly : Prop :=
  ∀ s t : State, step s = .next t → s.noReset → ∃ l, t.out = s.out ++ l

/-- spec/10_state.md R20, R37, spec/41_phase_accumulator.md R115, spec/43_lfo_subsystem.md R135:
on an idle core, a voice phase is written only by START and PROC, the LFO phase only by PROC, a
parameter register only by its own SET command. -/
def Obligations.RegistersHaveOnlyTheirWriters : Prop :=
  ∀ (s t : State) (w : CommandWord) (rest : List HostInput), s.seq = .idle →
    s.inputs = .command w :: rest → step s = .next t →
    ((t.driverPhase ≠ s.driverPhase ∨ t.outputPhase ≠ s.outputPhase) →
      decode w = .ok .start ∨ ∃ h y z, decode w = .ok (.proc h y z)) ∧
    (t.lfoPhase ≠ s.lfoPhase → ∃ h y z, decode w = .ok (.proc h y z)) ∧
    (t.paramShape ≠ s.paramShape → ∃ z, decode w = .ok (.setshape z)) ∧
    (t.paramShift ≠ s.paramShift → ∃ z, decode w = .ok (.setshift z)) ∧
    (t.paramTable ≠ s.paramTable → ∃ z, decode w = .ok (.settable z)) ∧
    (t.out ≠ s.out → ∃ h y z, decode w = .ok (.proc h y z))

/-- spec/45_sample_pipeline.md R173, the spec's own inference from R160, and R174: one frame's
sample depends only on the carrier and the output phase; nothing but `modIn` depends on the
modulation input and its delta. -/
def Obligations.FrameIgnoresTheModulationInput : Prop :=
  ∀ (c : Cfg) (s : State) (x d : Word32),
    (∃ v, (frame c s).out = s.out ++ [v] ∧
      ∀ t : State, t.waveSel = s.waveSel → t.outputPhase = s.outputPhase →
        (frame c t).out = t.out ++ [v]) ∧
    { frame c { s with modIn := x, modInDelta := d } with
        modIn := s.modIn, modInDelta := s.modInDelta } =
      { frame c s with modIn := s.modIn, modInDelta := s.modInDelta }
end

