-- ==== Sys2Proof/Laws/Numeric.lean ====
section
/-! SUPPORT. What the numeric primitives do (spec/40_numeric_layer.md R90 to R96), one lemma each. -/

namespace Sys2Proof.Machine

theorem two_pow_B_pos (c : Cfg) : (0 : Int) < 2 ^ c.B := by positivity

theorem two_pow_B_le (c : Cfg) : 2 ^ c.B ≤ 2 ^ 32 := Nat.pow_le_pow_right (by decide) c.B_le

/-! ### wrapB -/

theorem wrapB_nonneg (c : Cfg) (v : Int) : 0 ≤ wrapB c v :=
  Int.emod_nonneg v (two_pow_B_pos c).ne'

theorem wrapB_lt (c : Cfg) (v : Int) : wrapB c v < 2 ^ c.B :=
  Int.emod_lt_of_pos v (two_pow_B_pos c)

theorem wrapB_of_range (c : Cfg) (v : Int) (h0 : 0 ≤ v) (h1 : v < 2 ^ c.B) : wrapB c v = v :=
  Int.emod_eq_of_lt h0 h1

theorem wrapB_wrapB_add (c : Cfg) (a b : Int) : wrapB c (wrapB c a + b) = wrapB c (a + b) := by
  simp [wrapB, Int.add_emod]

/-! ### Registers -/

theorem toReg_toInt (v : Int) (h0 : -2147483648 ≤ v) (h1 : v ≤ 2147483647) :
    (toReg v).toInt = v := by
  rw [toReg, BitVec.toInt_ofInt, Int.bmod_def]; omega

theorem toReg_toNat (v : Int) (h0 : 0 ≤ v) (h1 : v < 4294967296) :
    ((toReg v).toNat : Int) = v := by
  rw [toReg, BitVec.toNat_ofInt]; omega

theorem toReg_natCast_toNat (n : Nat) (h : n < 4294967296) : (toReg n).toNat = n := by
  have := toReg_toNat n (by omega) (by omega); omega

theorem toReg_toInt_toReg (v : Int) : toReg (toReg v).toInt = toReg v :=
  BitVec.ofInt_toInt

theorem wrap32s_eq_toReg (v : Int) : wrap32s v = (toReg v).toInt := by
  rw [toReg, BitVec.toInt_ofInt, Int.bmod_def, wrap32s]
  split <;> omega

theorem toReg_wrap32s (v : Int) : toReg (wrap32s v) = toReg v := by
  rw [wrap32s_eq_toReg, toReg_toInt_toReg]

/-! ### clamp, sat32, truncdiv, sext, shifts -/

theorem clamp_spec (v lo hi : Int) (h : lo ≤ hi) :
    lo ≤ clamp v lo hi ∧ clamp v lo hi ≤ hi ∧ (lo ≤ v → v ≤ hi → clamp v lo hi = v) := by
  unfold clamp; split <;> (try split) <;> omega

theorem clamp_mono (v v' lo hi : Int) (h : lo ≤ hi) (hv : v ≤ v') :
    clamp v lo hi ≤ clamp v' lo hi := by
  unfold clamp; split <;> split <;> (try split) <;> (try split) <;> omega

theorem sat32_spec (v : Int) :
    -2147483648 ≤ sat32 v ∧ sat32 v ≤ 2147483647 ∧
      (-2147483648 ≤ v → v ≤ 2147483647 → sat32 v = v) := by
  unfold sat32; split <;> (try split) <;> omega

theorem truncdiv_eq_tdiv (a d : Int) : truncdiv a d = Int.tdiv a d := by
  unfold truncdiv
  split
  · rw [Int.tdiv_eq_ediv_of_nonneg ‹_›]
  · rw [← Int.tdiv_eq_ediv_of_nonneg (by omega), Int.neg_tdiv, neg_neg]

theorem sext32_eq_toInt (z : Word32) : sext 32 z.toNat = z.toInt := by
  rw [BitVec.toInt_eq_toNat_cond, sext]
  have := z.isLt
  split <;> split <;> omega

theorem operandS32_eq (z : Word32) : operandS32 z = z.toInt := sext32_eq_toInt z

theorem lowBits_eq_mod (v n : Nat) : lowBits v n = v % 2 ^ n :=
  Nat.and_two_pow_sub_one_eq_mod v n

theorem sra_mono (a b : Int) (n : Nat) (h : a ≤ b) : sra a n ≤ sra b n :=
  Int.ediv_le_ediv (by positivity) h

theorem sra_nonneg (a : Int) (n : Nat) (h : 0 ≤ a) : 0 ≤ sra a n :=
  Int.ediv_nonneg h (by positivity)

end Sys2Proof.Machine
end

