-- ==== Sys2Proof/Laws/Tables.lean ====
section
/-! SUPPORT. What a table read gives inside its space (spec/20_memory.md R50 to R54, R58). -/

namespace Sys2Proof.Machine

/-! ### WAVE -/

theorem readWave_of_element (c : Cfg) (a : Nat) (e : Word16) (h : c.wave[a]? = some e) :
    readWave c a = e.toInt := by
  simp [readWave, h]

/-- Table `n` is present at its full length (R51, R224). -/
theorem wave_element_exists (c : Cfg) (n i : Nat) (hn : n < c.N) (hi : i < 2 ^ c.T) :
    ∃ e, c.wave[n * 2 ^ c.T + i]? = some e := by
  have h1 : n * 2 ^ c.T + i < c.wave.length := by
    rw [c.wave_length]
    calc n * 2 ^ c.T + i < n * 2 ^ c.T + 2 ^ c.T := by omega
      _ = (n + 1) * 2 ^ c.T := by ring
      _ ≤ c.N * 2 ^ c.T := Nat.mul_le_mul_right _ hn
  exact ⟨_, List.getElem?_eq_getElem h1⟩

/-- Every element is an s16, stray reads included. -/
theorem readWave_range (c : Cfg) (a : Nat) : -32768 ≤ readWave c a ∧ readWave c a ≤ 32767 := by
  have h1 := BitVec.le_toInt ((c.wave[a]?).getD (Config.strayWave a))
  have h2 := BitVec.toInt_lt (x := (c.wave[a]?).getD (Config.strayWave a))
  unfold readWave
  constructor <;> omega

/-! ### CLIP -/

theorem readClip_of_element (c : Cfg) (j : Nat) (e : Word32) (h : c.clip[j]? = some e) :
    readClip c j = e.toInt := by
  simp [readClip, h]

theorem clip_element_exists (c : Cfg) (j : Nat) (h : j < c.K) : ∃ e, c.clip[j]? = some e :=
  ⟨_, List.getElem?_eq_getElem (by rw [c.clip_length]; exact h)⟩

theorem clip_element_toInt (c : Cfg) (j : Nat) (e : Word32) (h : c.clip[j]? = some e) :
    e.toInt = e.toNat ∧ e.toNat < 2147483648 := by
  have h1 := c.clip_nonneg e (List.mem_of_getElem? h)
  rw [BitVec.toInt_eq_toNat_cond]
  constructor <;> [split; skip] <;> omega

theorem readClip_zero (c : Cfg) : readClip c 0 = 0 := by
  simp [readClip_of_element c 0 0 c.clip_zero]

theorem readClip_range (c : Cfg) (j : Nat) (h : j < c.K) :
    0 ≤ readClip c j ∧ readClip c j ≤ 2147483647 := by
  obtain ⟨e, he⟩ := clip_element_exists c j h
  have := clip_element_toInt c j e he
  rw [readClip_of_element c j e he]
  omega

/-- CLIP is non-decreasing (44_soft_clip_limiter.md R141). -/
theorem readClip_mono (c : Cfg) (i j : Nat) (hij : i ≤ j) (hj : j < c.K) :
    readClip c i ≤ readClip c j := by
  obtain ⟨a, ha⟩ := clip_element_exists c i (by omega)
  obtain ⟨b, hb⟩ := clip_element_exists c j hj
  have h1 := clip_element_toInt c i a ha
  have h2 := clip_element_toInt c j b hb
  rw [readClip_of_element c i a ha, readClip_of_element c j b hb]
  rcases hij.lt_or_eq with hlt | rfl
  · obtain ⟨hi', rfl⟩ := List.getElem?_eq_some_iff.1 ha
    obtain ⟨hj', rfl⟩ := List.getElem?_eq_some_iff.1 hb
    have := List.pairwise_iff_getElem.1 c.clip_sorted i j hi' hj' hlt
    omega
  · have : a = b := by simpa [ha] using hb
    subst this; exact le_refl _

/-! ### LFO_DELTA -/

theorem lfoDelta_element (c : Cfg) (j : Nat) (h : j ≤ 47) :
    c.lfoDelta[j]? = some (readLfoDelta c j) ∧ (readLfoDelta c j).toNat < 2 ^ c.B := by
  have hj : j < c.lfoDelta.length := by rw [c.lfoDelta_length]; omega
  have he := List.getElem?_eq_getElem hj
  have hr : readLfoDelta c j = c.lfoDelta[j] := by simp [readLfoDelta, he]
  exact ⟨by rw [he, hr], by rw [hr]; exact c.lfoDelta_lt _ (List.getElem_mem hj)⟩

end Sys2Proof.Machine
end

