-- ==== Sys2Proof/Laws/Datapath.lean ====
section
/-! SUPPORT. What the datapath operations do (files 41 to 45 of spec/), one lemma or a few each. -/

namespace Sys2Proof.Machine

/-! ### The phase advance -/

theorem phadv_range (c : Cfg) (p d : Int) : 0 ≤ phadv c p d ∧ phadv c p d < 2 ^ c.B :=
  ⟨wrapB_nonneg c _, wrapB_lt c _⟩

theorem two_pow_B_le_int (c : Cfg) : (2 : Int) ^ c.B ≤ 4294967296 := by
  have := two_pow_B_le c
  exact_mod_cast this

/-- The register holds the advanced phase: no bit is lost, `B` being at most 32. -/
theorem advancePhase_toNat (c : Cfg) (p : Word32) (d : Int) :
    ((advancePhase c p d).toNat : Int) = phadv c p.toNat d := by
  have h := phadv_range c p.toNat d
  have := two_pow_B_le_int c
  exact toReg_toNat _ h.1 (by omega)

theorem advancePhase_lt (c : Cfg) (p : Word32) (d : Int) : (advancePhase c p d).toNat < 2 ^ c.B := by
  have h := (phadv_range c p.toNat d).2
  rw [← advancePhase_toNat] at h
  exact_mod_cast h

/-- The advance by an unsigned increment, in natural numbers. -/
theorem advancePhase_nat (c : Cfg) (p : Word32) (d : Nat) :
    (advancePhase c p d).toNat = (p.toNat + d) % 2 ^ c.B := by
  have h := advancePhase_toNat c p d
  rw [phadv, wrapB] at h
  exact_mod_cast h

/-! ### Interpolation -/

/-- Between the two ends, and exactly the first at fraction 0 (42_wavetable_interpolator.md R120). -/
theorem interpolate_between (s0 s1 : Int) (f : Nat) (hf : f < 256) :
    min s0 s1 ≤ interpolate s0 s1 f ∧ interpolate s0 s1 f ≤ max s0 s1 := by
  unfold interpolate sra
  rcases le_total s0 s1 with h | h
  · have h0 : 0 ≤ (s1 - s0) * (f : Int) := by nlinarith
    have h1 : (s1 - s0) * (f : Int) ≤ (s1 - s0) * 256 := by nlinarith
    constructor <;> omega
  · have h0 : (s1 - s0) * (f : Int) ≤ 0 := by nlinarith
    have h1 : (s1 - s0) * 256 ≤ (s1 - s0) * (f : Int) := by nlinarith
    constructor <;> omega

theorem interpolate_zero (s0 s1 : Int) : interpolate s0 s1 0 = s0 := by
  simp [interpolate, sra]

/-- Towards a larger end, a larger fraction gives no smaller value. -/
theorem interpolate_mono (s0 s1 : Int) (f g : Nat) (hs : s0 ≤ s1) (h : f ≤ g) :
    interpolate s0 s1 f ≤ interpolate s0 s1 g := by
  have h' : (s1 - s0) * (f : Int) ≤ (s1 - s0) * g := by
    have : (f : Int) ≤ g := by exact_mod_cast h
    nlinarith
  have := sra_mono _ _ 8 h'
  unfold interpolate; omega

/-! ### WTLOOK -/

theorem waveIndex_eq (c : Cfg) (p : Nat) : waveIndex c p = p / 2 ^ (c.B - c.T) :=
  Nat.shiftRight_eq_div_pow _ _

theorem waveFraction_eq (c : Cfg) (p : Nat) :
    waveFraction c p = p / 2 ^ (c.B - c.T - 8) % 256 := by
  rw [waveFraction, lowBits_eq_mod, Nat.shiftRight_eq_div_pow]; norm_num

theorem waveFraction_lt (c : Cfg) (p : Nat) : waveFraction c p < 256 := by
  rw [waveFraction_eq]; omega

theorem waveIndex_lt (c : Cfg) (p : Nat) (h : p < 2 ^ c.B) : waveIndex c p < 2 ^ c.T := by
  have hT := c.T_add_eight_le_B
  rw [waveIndex_eq, Nat.div_lt_iff_lt_mul (by positivity), ← pow_add]
  rwa [show c.T + (c.B - c.T) = c.B by omega]

theorem waveSuccessor_eq (c : Cfg) (i : Nat) (h : i < 2 ^ c.T) :
    waveSuccessor c i = if i = 2 ^ c.T - 1 then 0 else i + 1 := by
  rw [waveSuccessor, lowBits_eq_mod]
  split
  · rw [show i + 1 = 2 ^ c.T by omega, Nat.mod_self]
  · rw [Nat.mod_eq_of_lt (by omega)]

theorem waveSuccessor_lt (c : Cfg) (i : Nat) : waveSuccessor c i < 2 ^ c.T := by
  rw [waveSuccessor, lowBits_eq_mod]; exact Nat.mod_lt _ (by positivity)

/-- WTLOOK is an s16 in every state, also where a read strays (log 4). -/
theorem wtlook_range (c : Cfg) (n p : Nat) : -32768 ≤ wtlook c n p ∧ wtlook c n p ≤ 32767 := by
  have h0 := readWave_range c (n * 2 ^ c.T + waveIndex c p)
  have h1 := readWave_range c (n * 2 ^ c.T + waveSuccessor c (waveIndex c p))
  have hb := interpolate_between (waveElement c n (waveIndex c p))
    (waveElement c n (waveSuccessor c (waveIndex c p))) _ (waveFraction_lt c p)
  unfold wtlook
  unfold waveElement at *
  omega

/-- At phase 0 WTLOOK is the table's element 0 (R125). -/
theorem wtlook_zero (c : Cfg) (n : Nat) : wtlook c n 0 = waveElement c n 0 := by
  simp [wtlook, waveIndex_eq, waveFraction_eq, interpolate_zero]

/-! ### OUTCONV -/

/-- OUTCONV is a multiple of `2^19` inside the s32 range (R122; 30_encoding.md R81). -/
theorem outconv_range (s : Int) :
    -2147483648 ≤ outconv s ∧ outconv s ≤ 2146959360 ∧ outconv s % 524288 = 0 := by
  have := clamp_spec s (-4096) 4095 (by decide)
  unfold outconv
  omega

theorem toReg_outconv_toInt (s : Int) : (toReg (outconv s)).toInt = outconv s := by
  have := outconv_range s
  exact toReg_toInt _ this.1 (by omega)

theorem toReg_outconv_low (s : Int) : (toReg (outconv s)).toNat % 2 ^ 19 = 0 := by
  have h := outconv_range s
  have h2 := toReg_outconv_toInt s
  rw [BitVec.toInt_eq_toNat_cond] at h2
  split at h2 <;> omega

/-! ### TABSEL -/

theorem carrierOf_eq (c : Cfg) (t : Int) :
    (carrierOf c t : Int) = clamp t 0 (c.N - 2) ∧ carrierOf c t ≤ c.N - 2 := by
  have hN := c.two_le_N
  have := clamp_spec t 0 (c.N - 2) (by omega)
  unfold carrierOf
  omega

/-! ### LFO -/

/-- LFOMAP's index in natural numbers; the clamp acts only on values no register holds (R130). -/
theorem lfoIndex_eq (v : Nat) : lfoIndex v = min ((v * 47 + 32768) / 65536) 47 := by
  unfold lfoIndex clamp sra
  split <;> (try split) <;> omega

theorem lfoIndex_le (v : Nat) : lfoIndex v ≤ 47 := by
  rw [lfoIndex_eq]; omega

theorem trigen_fall (c : Cfg) (p : Nat) (h : p < 2 ^ (c.B - 1)) :
    trigen c p = 4096 - ((p / 2 ^ (c.B - 14) : Nat) : Int) := by
  rw [trigen, if_pos h, Nat.shiftRight_eq_div_pow]

theorem trigen_rise (c : Cfg) (p : Nat) (h : 2 ^ (c.B - 1) ≤ p) :
    trigen c p = -4096 + (((p - 2 ^ (c.B - 1)) / 2 ^ (c.B - 14) : Nat) : Int) := by
  rw [trigen, if_neg (by omega), Nat.shiftRight_eq_div_pow]

/-- Half a cycle is `8192` output steps of `2^(B-14)` phase values (43_lfo_subsystem.md R132). -/
theorem half_cycle (c : Cfg) :
    2 ^ (c.B - 1) = 8192 * 2 ^ (c.B - 14) ∧ 2 ^ c.B = 2 * 2 ^ (c.B - 1) ∧
      2 ^ (c.B - 2) = 4096 * 2 ^ (c.B - 14) ∧ 0 < 2 ^ (c.B - 14) := by
  have hB := c.fourteen_le_B
  refine ⟨?_, ?_, ?_, by positivity⟩
  · rw [show c.B - 1 = 13 + (c.B - 14) by omega, pow_add]; norm_num
  · rw [← pow_succ', show c.B - 1 + 1 = c.B by omega]
  · rw [show c.B - 2 = 12 + (c.B - 14) by omega, pow_add]; norm_num

theorem trigen_range (c : Cfg) (p : Nat) (h : p < 2 ^ c.B) :
    -4096 ≤ trigen c p ∧ trigen c p ≤ 4096 := by
  obtain ⟨h1, h2, -, h3⟩ := half_cycle c
  rcases lt_or_ge p (2 ^ (c.B - 1)) with hp | hp
  · have : p / 2 ^ (c.B - 14) < 8192 := (Nat.div_lt_iff_lt_mul h3).2 (by omega)
    rw [trigen_fall c p hp]
    generalize p / 2 ^ (c.B - 14) = q at *
    omega
  · have : (p - 2 ^ (c.B - 1)) / 2 ^ (c.B - 14) < 8192 := (Nat.div_lt_iff_lt_mul h3).2 (by omega)
    rw [trigen_rise c p hp]
    generalize (p - 2 ^ (c.B - 1)) / 2 ^ (c.B - 14) = q at *
    omega

/-! ### SOFTCLIP -/

theorem clip_fraction_lt (mag n : Nat) : lowBits (mag >>> n) 8 < 256 := by
  rw [lowBits_eq_mod]; exact Nat.mod_lt _ (by decide)

/-- Inside a segment, between its two ends (44_soft_clip_limiter.md R140). -/
theorem clipMagnitude_segment (c : Cfg) (mag : Nat) (h : mag >>> c.S < c.K - 1) :
    readClip c (mag >>> c.S) ≤ clipMagnitude c mag ∧
      clipMagnitude c mag ≤ readClip c (mag >>> c.S + 1) := by
  rw [clipMagnitude, if_neg (by omega)]
  have hf := clip_fraction_lt mag (c.S - 8)
  generalize mag >>> c.S = j at *
  have hm := readClip_mono c j (j + 1) (by omega) (by omega)
  have := interpolate_between (readClip c j) (readClip c (j + 1)) _ hf
  omega

theorem clipMagnitude_top (c : Cfg) (mag : Nat) (h : c.K - 1 ≤ mag >>> c.S) :
    clipMagnitude c mag = readClip c (c.K - 1) := by
  rw [clipMagnitude, if_pos h]

theorem clipMagnitude_range (c : Cfg) (mag : Nat) :
    0 ≤ clipMagnitude c mag ∧ clipMagnitude c mag ≤ readClip c (c.K - 1) := by
  have hK := c.two_le_K
  rcases lt_or_ge (mag >>> c.S) (c.K - 1) with h | h
  · have h1 := clipMagnitude_segment c mag h
    generalize mag >>> c.S = j at *
    have h2 := (readClip_range c j (by omega)).1
    have h3 := readClip_mono c (j + 1) (c.K - 1) (by omega) (by omega)
    omega
  · rw [clipMagnitude_top c mag h]
    exact ⟨(readClip_range c _ (by omega)).1, le_refl _⟩

theorem clipMagnitude_zero (c : Cfg) : clipMagnitude c 0 = 0 := by
  have hK := c.two_le_K
  have hf : lowBits (0 >>> (c.S - 8)) 8 = 0 := by simp [lowBits_eq_mod]
  rw [clipMagnitude, if_neg (by simp; omega), hf, interpolate_zero]
  simp [readClip_zero]

theorem softclip_of_nonneg (c : Cfg) (x : Int) (h : 0 ≤ x) :
    softclip c x = clipMagnitude c x.natAbs := by
  rw [softclip, if_neg (by omega)]

theorem softclip_of_neg (c : Cfg) (x : Int) (h : x < 0) :
    softclip c x = -clipMagnitude c x.natAbs := by
  rw [softclip, if_pos h]

/-! ### Setup operations -/

/-- PITCHCORE fits s32 (45_sample_pipeline.md R151). -/
theorem pitchcore_range (h : Word16) :
    -96468992 ≤ pitchcore (operandPitch h) ∧ pitchcore (operandPitch h) ≤ 261439488 := by
  have := h.isLt
  unfold pitchcore truncdiv operandPitch zext
  generalize h.toNat = n at *
  constructor <;> (split <;> omega)

/-- ROUTE's value is at least 1 and at most `ROUTE_MIN + ROUTE_SPAN` (R153). -/
theorem routeValue_range (c : Cfg) (shape : Nat) (h : shape ≤ 65536) :
    1 ≤ routeValue c shape ∧ routeValue c shape ≤ c.routeMin + c.routeSpan ∧
      routeValue c shape ≤ 2147483647 := by
  have h1 := c.one_le_routeMin
  have h2 := c.route_le
  have h3 : shape * c.routeSpan ≤ 65536 * c.routeSpan := Nat.mul_le_mul_right _ h
  rw [routeValue, Nat.shiftRight_eq_div_pow]
  omega

theorem routeValue_eq (c : Cfg) (shape : Nat) :
    routeValue c shape = c.routeMin + shape * c.routeSpan / 65536 := by
  rw [routeValue, Nat.shiftRight_eq_div_pow]

/-- MODDELTA fits s32 (40_numeric_layer.md R102). -/
theorem moddelta_range (y m : Int) (n : Nat) :
    -2147483648 ≤ moddelta y m n ∧ moddelta y m n ≤ 2147483647 := by
  unfold moddelta
  split
  · omega
  · have h1 := BitVec.le_toInt (toReg (y - m))
    have h2 := BitVec.toInt_lt (x := toReg (y - m))
    rw [wrap32s_eq_toReg, truncdiv]
    generalize (toReg (y - m)).toInt = v at *
    have hn : (1 : Int) ≤ n := by omega
    split
    · have := Int.ediv_le_self n (by assumption : 0 ≤ v)
      have := Int.ediv_nonneg (by assumption : 0 ≤ v) (by omega : (0 : Int) ≤ n)
      omega
    · have := Int.ediv_le_self n (by omega : 0 ≤ -v)
      have := Int.ediv_nonneg (by omega : 0 ≤ -v) (by omega : (0 : Int) ≤ n)
      omega

end Sys2Proof.Machine
end

