-- ==== Sys2Proof/Laws/State.lean ====
section
/-! SUPPORT. One lemma per field per update of the state, each true by unfolding, so that no later
proof unfolds a record update. -/

namespace Sys2Proof.Machine

/-! ### emit -/

@[simp] theorem emit_driverPhase (v : Int) (s : State) :
    (emit v s).driverPhase = s.driverPhase := rfl
@[simp] theorem emit_outputPhase (v : Int) (s : State) :
    (emit v s).outputPhase = s.outputPhase := rfl
@[simp] theorem emit_driverIncrement (v : Int) (s : State) :
    (emit v s).driverIncrement = s.driverIncrement := rfl
@[simp] theorem emit_waveSel (v : Int) (s : State) :
    (emit v s).waveSel = s.waveSel := rfl
@[simp] theorem emit_lfoPhase (v : Int) (s : State) :
    (emit v s).lfoPhase = s.lfoPhase := rfl
@[simp] theorem emit_lfoIncrement (v : Int) (s : State) :
    (emit v s).lfoIncrement = s.lfoIncrement := rfl
@[simp] theorem emit_pitch (v : Int) (s : State) :
    (emit v s).pitch = s.pitch := rfl
@[simp] theorem emit_staticOffset (v : Int) (s : State) :
    (emit v s).staticOffset = s.staticOffset := rfl
@[simp] theorem emit_depth (v : Int) (s : State) :
    (emit v s).depth = s.depth := rfl
@[simp] theorem emit_modIn (v : Int) (s : State) :
    (emit v s).modIn = s.modIn := rfl
@[simp] theorem emit_modInDelta (v : Int) (s : State) :
    (emit v s).modInDelta = s.modInDelta := rfl
@[simp] theorem emit_paramShape (v : Int) (s : State) :
    (emit v s).paramShape = s.paramShape := rfl
@[simp] theorem emit_paramShift (v : Int) (s : State) :
    (emit v s).paramShift = s.paramShift := rfl
@[simp] theorem emit_paramTable (v : Int) (s : State) :
    (emit v s).paramTable = s.paramTable := rfl
@[simp] theorem emit_frameCnt (v : Int) (s : State) :
    (emit v s).frameCnt = s.frameCnt := rfl
@[simp] theorem emit_frameIdx (v : Int) (s : State) :
    (emit v s).frameIdx = s.frameIdx := rfl
@[simp] theorem emit_ill (v : Int) (s : State) :
    (emit v s).ill = s.ill := rfl
@[simp] theorem emit_out (v : Int) (s : State) :
    (emit v s).out = s.out ++ [toReg v] := rfl
@[simp] theorem emit_seq (v : Int) (s : State) :
    (emit v s).seq = s.seq := rfl
@[simp] theorem emit_inputs (v : Int) (s : State) :
    (emit v s).inputs = s.inputs := rfl

/-! ### raiseIllegalCommand -/

@[simp] theorem raiseIllegalCommand_driverPhase (s : State) :
    (raiseIllegalCommand s).driverPhase = s.driverPhase := rfl
@[simp] theorem raiseIllegalCommand_outputPhase (s : State) :
    (raiseIllegalCommand s).outputPhase = s.outputPhase := rfl
@[simp] theorem raiseIllegalCommand_driverIncrement (s : State) :
    (raiseIllegalCommand s).driverIncrement = s.driverIncrement := rfl
@[simp] theorem raiseIllegalCommand_waveSel (s : State) :
    (raiseIllegalCommand s).waveSel = s.waveSel := rfl
@[simp] theorem raiseIllegalCommand_lfoPhase (s : State) :
    (raiseIllegalCommand s).lfoPhase = s.lfoPhase := rfl
@[simp] theorem raiseIllegalCommand_lfoIncrement (s : State) :
    (raiseIllegalCommand s).lfoIncrement = s.lfoIncrement := rfl
@[simp] theorem raiseIllegalCommand_pitch (s : State) :
    (raiseIllegalCommand s).pitch = s.pitch := rfl
@[simp] theorem raiseIllegalCommand_staticOffset (s : State) :
    (raiseIllegalCommand s).staticOffset = s.staticOffset := rfl
@[simp] theorem raiseIllegalCommand_depth (s : State) :
    (raiseIllegalCommand s).depth = s.depth := rfl
@[simp] theorem raiseIllegalCommand_modIn (s : State) :
    (raiseIllegalCommand s).modIn = s.modIn := rfl
@[simp] theorem raiseIllegalCommand_modInDelta (s : State) :
    (raiseIllegalCommand s).modInDelta = s.modInDelta := rfl
@[simp] theorem raiseIllegalCommand_paramShape (s : State) :
    (raiseIllegalCommand s).paramShape = s.paramShape := rfl
@[simp] theorem raiseIllegalCommand_paramShift (s : State) :
    (raiseIllegalCommand s).paramShift = s.paramShift := rfl
@[simp] theorem raiseIllegalCommand_paramTable (s : State) :
    (raiseIllegalCommand s).paramTable = s.paramTable := rfl
@[simp] theorem raiseIllegalCommand_frameCnt (s : State) :
    (raiseIllegalCommand s).frameCnt = s.frameCnt := rfl
@[simp] theorem raiseIllegalCommand_frameIdx (s : State) :
    (raiseIllegalCommand s).frameIdx = s.frameIdx := rfl
@[simp] theorem raiseIllegalCommand_ill (s : State) :
    (raiseIllegalCommand s).ill = true := rfl
@[simp] theorem raiseIllegalCommand_out (s : State) :
    (raiseIllegalCommand s).out = s.out := rfl
@[simp] theorem raiseIllegalCommand_seq (s : State) :
    (raiseIllegalCommand s).seq = s.seq := rfl
@[simp] theorem raiseIllegalCommand_inputs (s : State) :
    (raiseIllegalCommand s).inputs = s.inputs := rfl

/-! ### drvadv -/

@[simp] theorem drvadv_driverPhase (c : Cfg) (s : State) :
    (drvadv c s).driverPhase = advancePhase c s.driverPhase s.driverIncrement.toNat := rfl
@[simp] theorem drvadv_outputPhase (c : Cfg) (s : State) :
    (drvadv c s).outputPhase = s.outputPhase := rfl
@[simp] theorem drvadv_driverIncrement (c : Cfg) (s : State) :
    (drvadv c s).driverIncrement = s.driverIncrement := rfl
@[simp] theorem drvadv_waveSel (c : Cfg) (s : State) :
    (drvadv c s).waveSel = s.waveSel := rfl
@[simp] theorem drvadv_lfoPhase (c : Cfg) (s : State) :
    (drvadv c s).lfoPhase = s.lfoPhase := rfl
@[simp] theorem drvadv_lfoIncrement (c : Cfg) (s : State) :
    (drvadv c s).lfoIncrement = s.lfoIncrement := rfl
@[simp] theorem drvadv_pitch (c : Cfg) (s : State) :
    (drvadv c s).pitch = s.pitch := rfl
@[simp] theorem drvadv_staticOffset (c : Cfg) (s : State) :
    (drvadv c s).staticOffset = s.staticOffset := rfl
@[simp] theorem drvadv_depth (c : Cfg) (s : State) :
    (drvadv c s).depth = s.depth := rfl
@[simp] theorem drvadv_modIn (c : Cfg) (s : State) :
    (drvadv c s).modIn = s.modIn := rfl
@[simp] theorem drvadv_modInDelta (c : Cfg) (s : State) :
    (drvadv c s).modInDelta = s.modInDelta := rfl
@[simp] theorem drvadv_paramShape (c : Cfg) (s : State) :
    (drvadv c s).paramShape = s.paramShape := rfl
@[simp] theorem drvadv_paramShift (c : Cfg) (s : State) :
    (drvadv c s).paramShift = s.paramShift := rfl
@[simp] theorem drvadv_paramTable (c : Cfg) (s : State) :
    (drvadv c s).paramTable = s.paramTable := rfl
@[simp] theorem drvadv_frameCnt (c : Cfg) (s : State) :
    (drvadv c s).frameCnt = s.frameCnt := rfl
@[simp] theorem drvadv_frameIdx (c : Cfg) (s : State) :
    (drvadv c s).frameIdx = s.frameIdx := rfl
@[simp] theorem drvadv_ill (c : Cfg) (s : State) :
    (drvadv c s).ill = s.ill := rfl
@[simp] theorem drvadv_out (c : Cfg) (s : State) :
    (drvadv c s).out = s.out := rfl
@[simp] theorem drvadv_seq (c : Cfg) (s : State) :
    (drvadv c s).seq = s.seq := rfl
@[simp] theorem drvadv_inputs (c : Cfg) (s : State) :
    (drvadv c s).inputs = s.inputs := rfl

/-! ### outadv -/

@[simp] theorem outadv_driverPhase (c : Cfg) (d : Int) (s : State) :
    (outadv c d s).driverPhase = s.driverPhase := rfl
@[simp] theorem outadv_outputPhase (c : Cfg) (d : Int) (s : State) :
    (outadv c d s).outputPhase = advancePhase c s.outputPhase d := rfl
@[simp] theorem outadv_driverIncrement (c : Cfg) (d : Int) (s : State) :
    (outadv c d s).driverIncrement = s.driverIncrement := rfl
@[simp] theorem outadv_waveSel (c : Cfg) (d : Int) (s : State) :
    (outadv c d s).waveSel = s.waveSel := rfl
@[simp] theorem outadv_lfoPhase (c : Cfg) (d : Int) (s : State) :
    (outadv c d s).lfoPhase = s.lfoPhase := rfl
@[simp] theorem outadv_lfoIncrement (c : Cfg) (d : Int) (s : State) :
    (outadv c d s).lfoIncrement = s.lfoIncrement := rfl
@[simp] theorem outadv_pitch (c : Cfg) (d : Int) (s : State) :
    (outadv c d s).pitch = s.pitch := rfl
@[simp] theorem outadv_staticOffset (c : Cfg) (d : Int) (s : State) :
    (outadv c d s).staticOffset = s.staticOffset := rfl
@[simp] theorem outadv_depth (c : Cfg) (d : Int) (s : State) :
    (outadv c d s).depth = s.depth := rfl
@[simp] theorem outadv_modIn (c : Cfg) (d : Int) (s : State) :
    (outadv c d s).modIn = s.modIn := rfl
@[simp] theorem outadv_modInDelta (c : Cfg) (d : Int) (s : State) :
    (outadv c d s).modInDelta = s.modInDelta := rfl
@[simp] theorem outadv_paramShape (c : Cfg) (d : Int) (s : State) :
    (outadv c d s).paramShape = s.paramShape := rfl
@[simp] theorem outadv_paramShift (c : Cfg) (d : Int) (s : State) :
    (outadv c d s).paramShift = s.paramShift := rfl
@[simp] theorem outadv_paramTable (c : Cfg) (d : Int) (s : State) :
    (outadv c d s).paramTable = s.paramTable := rfl
@[simp] theorem outadv_frameCnt (c : Cfg) (d : Int) (s : State) :
    (outadv c d s).frameCnt = s.frameCnt := rfl
@[simp] theorem outadv_frameIdx (c : Cfg) (d : Int) (s : State) :
    (outadv c d s).frameIdx = s.frameIdx := rfl
@[simp] theorem outadv_ill (c : Cfg) (d : Int) (s : State) :
    (outadv c d s).ill = s.ill := rfl
@[simp] theorem outadv_out (c : Cfg) (d : Int) (s : State) :
    (outadv c d s).out = s.out := rfl
@[simp] theorem outadv_seq (c : Cfg) (d : Int) (s : State) :
    (outadv c d s).seq = s.seq := rfl
@[simp] theorem outadv_inputs (c : Cfg) (d : Int) (s : State) :
    (outadv c d s).inputs = s.inputs := rfl

/-! ### lfoadv -/

@[simp] theorem lfoadv_driverPhase (c : Cfg) (s : State) :
    (lfoadv c s).driverPhase = s.driverPhase := rfl
@[simp] theorem lfoadv_outputPhase (c : Cfg) (s : State) :
    (lfoadv c s).outputPhase = s.outputPhase := rfl
@[simp] theorem lfoadv_driverIncrement (c : Cfg) (s : State) :
    (lfoadv c s).driverIncrement = s.driverIncrement := rfl
@[simp] theorem lfoadv_waveSel (c : Cfg) (s : State) :
    (lfoadv c s).waveSel = s.waveSel := rfl
@[simp] theorem lfoadv_lfoPhase (c : Cfg) (s : State) :
    (lfoadv c s).lfoPhase = advancePhase c s.lfoPhase s.lfoIncrement.toNat := rfl
@[simp] theorem lfoadv_lfoIncrement (c : Cfg) (s : State) :
    (lfoadv c s).lfoIncrement = s.lfoIncrement := rfl
@[simp] theorem lfoadv_pitch (c : Cfg) (s : State) :
    (lfoadv c s).pitch = s.pitch := rfl
@[simp] theorem lfoadv_staticOffset (c : Cfg) (s : State) :
    (lfoadv c s).staticOffset = s.staticOffset := rfl
@[simp] theorem lfoadv_depth (c : Cfg) (s : State) :
    (lfoadv c s).depth = s.depth := rfl
@[simp] theorem lfoadv_modIn (c : Cfg) (s : State) :
    (lfoadv c s).modIn = s.modIn := rfl
@[simp] theorem lfoadv_modInDelta (c : Cfg) (s : State) :
    (lfoadv c s).modInDelta = s.modInDelta := rfl
@[simp] theorem lfoadv_paramShape (c : Cfg) (s : State) :
    (lfoadv c s).paramShape = s.paramShape := rfl
@[simp] theorem lfoadv_paramShift (c : Cfg) (s : State) :
    (lfoadv c s).paramShift = s.paramShift := rfl
@[simp] theorem lfoadv_paramTable (c : Cfg) (s : State) :
    (lfoadv c s).paramTable = s.paramTable := rfl
@[simp] theorem lfoadv_frameCnt (c : Cfg) (s : State) :
    (lfoadv c s).frameCnt = s.frameCnt := rfl
@[simp] theorem lfoadv_frameIdx (c : Cfg) (s : State) :
    (lfoadv c s).frameIdx = s.frameIdx := rfl
@[simp] theorem lfoadv_ill (c : Cfg) (s : State) :
    (lfoadv c s).ill = s.ill := rfl
@[simp] theorem lfoadv_out (c : Cfg) (s : State) :
    (lfoadv c s).out = s.out := rfl
@[simp] theorem lfoadv_seq (c : Cfg) (s : State) :
    (lfoadv c s).seq = s.seq := rfl
@[simp] theorem lfoadv_inputs (c : Cfg) (s : State) :
    (lfoadv c s).inputs = s.inputs := rfl

/-! ### tabsel -/

@[simp] theorem tabsel_driverPhase (c : Cfg) (s : State) :
    (tabsel c s).driverPhase = s.driverPhase := rfl
@[simp] theorem tabsel_outputPhase (c : Cfg) (s : State) :
    (tabsel c s).outputPhase = s.outputPhase := rfl
@[simp] theorem tabsel_driverIncrement (c : Cfg) (s : State) :
    (tabsel c s).driverIncrement = s.driverIncrement := rfl
@[simp] theorem tabsel_waveSel (c : Cfg) (s : State) :
    (tabsel c s).waveSel = carrierOf c s.paramTable.toInt := rfl
@[simp] theorem tabsel_lfoPhase (c : Cfg) (s : State) :
    (tabsel c s).lfoPhase = s.lfoPhase := rfl
@[simp] theorem tabsel_lfoIncrement (c : Cfg) (s : State) :
    (tabsel c s).lfoIncrement = s.lfoIncrement := rfl
@[simp] theorem tabsel_pitch (c : Cfg) (s : State) :
    (tabsel c s).pitch = s.pitch := rfl
@[simp] theorem tabsel_staticOffset (c : Cfg) (s : State) :
    (tabsel c s).staticOffset = s.staticOffset := rfl
@[simp] theorem tabsel_depth (c : Cfg) (s : State) :
    (tabsel c s).depth = s.depth := rfl
@[simp] theorem tabsel_modIn (c : Cfg) (s : State) :
    (tabsel c s).modIn = s.modIn := rfl
@[simp] theorem tabsel_modInDelta (c : Cfg) (s : State) :
    (tabsel c s).modInDelta = s.modInDelta := rfl
@[simp] theorem tabsel_paramShape (c : Cfg) (s : State) :
    (tabsel c s).paramShape = s.paramShape := rfl
@[simp] theorem tabsel_paramShift (c : Cfg) (s : State) :
    (tabsel c s).paramShift = s.paramShift := rfl
@[simp] theorem tabsel_paramTable (c : Cfg) (s : State) :
    (tabsel c s).paramTable = s.paramTable := rfl
@[simp] theorem tabsel_frameCnt (c : Cfg) (s : State) :
    (tabsel c s).frameCnt = s.frameCnt := rfl
@[simp] theorem tabsel_frameIdx (c : Cfg) (s : State) :
    (tabsel c s).frameIdx = s.frameIdx := rfl
@[simp] theorem tabsel_ill (c : Cfg) (s : State) :
    (tabsel c s).ill = s.ill := rfl
@[simp] theorem tabsel_out (c : Cfg) (s : State) :
    (tabsel c s).out = s.out := rfl
@[simp] theorem tabsel_seq (c : Cfg) (s : State) :
    (tabsel c s).seq = s.seq := rfl
@[simp] theorem tabsel_inputs (c : Cfg) (s : State) :
    (tabsel c s).inputs = s.inputs := rfl

/-! ### lfomap -/

@[simp] theorem lfomap_driverPhase (c : Cfg) (idx : Nat) (s : State) :
    (lfomap c idx s).driverPhase = s.driverPhase := rfl
@[simp] theorem lfomap_outputPhase (c : Cfg) (idx : Nat) (s : State) :
    (lfomap c idx s).outputPhase = s.outputPhase := rfl
@[simp] theorem lfomap_driverIncrement (c : Cfg) (idx : Nat) (s : State) :
    (lfomap c idx s).driverIncrement = s.driverIncrement := rfl
@[simp] theorem lfomap_waveSel (c : Cfg) (idx : Nat) (s : State) :
    (lfomap c idx s).waveSel = s.waveSel := rfl
@[simp] theorem lfomap_lfoPhase (c : Cfg) (idx : Nat) (s : State) :
    (lfomap c idx s).lfoPhase = s.lfoPhase := rfl
@[simp] theorem lfomap_lfoIncrement (c : Cfg) (idx : Nat) (s : State) :
    (lfomap c idx s).lfoIncrement = readLfoDelta c idx := rfl
@[simp] theorem lfomap_pitch (c : Cfg) (idx : Nat) (s : State) :
    (lfomap c idx s).pitch = s.pitch := rfl
@[simp] theorem lfomap_staticOffset (c : Cfg) (idx : Nat) (s : State) :
    (lfomap c idx s).staticOffset = s.staticOffset := rfl
@[simp] theorem lfomap_depth (c : Cfg) (idx : Nat) (s : State) :
    (lfomap c idx s).depth = s.depth := rfl
@[simp] theorem lfomap_modIn (c : Cfg) (idx : Nat) (s : State) :
    (lfomap c idx s).modIn = s.modIn := rfl
@[simp] theorem lfomap_modInDelta (c : Cfg) (idx : Nat) (s : State) :
    (lfomap c idx s).modInDelta = s.modInDelta := rfl
@[simp] theorem lfomap_paramShape (c : Cfg) (idx : Nat) (s : State) :
    (lfomap c idx s).paramShape = s.paramShape := rfl
@[simp] theorem lfomap_paramShift (c : Cfg) (idx : Nat) (s : State) :
    (lfomap c idx s).paramShift = s.paramShift := rfl
@[simp] theorem lfomap_paramTable (c : Cfg) (idx : Nat) (s : State) :
    (lfomap c idx s).paramTable = s.paramTable := rfl
@[simp] theorem lfomap_frameCnt (c : Cfg) (idx : Nat) (s : State) :
    (lfomap c idx s).frameCnt = s.frameCnt := rfl
@[simp] theorem lfomap_frameIdx (c : Cfg) (idx : Nat) (s : State) :
    (lfomap c idx s).frameIdx = s.frameIdx := rfl
@[simp] theorem lfomap_ill (c : Cfg) (idx : Nat) (s : State) :
    (lfomap c idx s).ill = s.ill := rfl
@[simp] theorem lfomap_out (c : Cfg) (idx : Nat) (s : State) :
    (lfomap c idx s).out = s.out := rfl
@[simp] theorem lfomap_seq (c : Cfg) (idx : Nat) (s : State) :
    (lfomap c idx s).seq = s.seq := rfl
@[simp] theorem lfomap_inputs (c : Cfg) (idx : Nat) (s : State) :
    (lfomap c idx s).inputs = s.inputs := rfl

/-! ### The pitch register, for any value (Lean's kernel checks these fast; with PITCHCORE's value written
out it would try to evaluate it) -/

theorem pitchUpdate_driverPhase (v : Word32) (s : State) :
    ({ s with pitch := v } : State).driverPhase = s.driverPhase := rfl
theorem pitchUpdate_outputPhase (v : Word32) (s : State) :
    ({ s with pitch := v } : State).outputPhase = s.outputPhase := rfl
theorem pitchUpdate_driverIncrement (v : Word32) (s : State) :
    ({ s with pitch := v } : State).driverIncrement = s.driverIncrement := rfl
theorem pitchUpdate_waveSel (v : Word32) (s : State) :
    ({ s with pitch := v } : State).waveSel = s.waveSel := rfl
theorem pitchUpdate_lfoPhase (v : Word32) (s : State) :
    ({ s with pitch := v } : State).lfoPhase = s.lfoPhase := rfl
theorem pitchUpdate_lfoIncrement (v : Word32) (s : State) :
    ({ s with pitch := v } : State).lfoIncrement = s.lfoIncrement := rfl
theorem pitchUpdate_staticOffset (v : Word32) (s : State) :
    ({ s with pitch := v } : State).staticOffset = s.staticOffset := rfl
theorem pitchUpdate_depth (v : Word32) (s : State) :
    ({ s with pitch := v } : State).depth = s.depth := rfl
theorem pitchUpdate_modIn (v : Word32) (s : State) :
    ({ s with pitch := v } : State).modIn = s.modIn := rfl
theorem pitchUpdate_modInDelta (v : Word32) (s : State) :
    ({ s with pitch := v } : State).modInDelta = s.modInDelta := rfl
theorem pitchUpdate_paramShape (v : Word32) (s : State) :
    ({ s with pitch := v } : State).paramShape = s.paramShape := rfl
theorem pitchUpdate_paramShift (v : Word32) (s : State) :
    ({ s with pitch := v } : State).paramShift = s.paramShift := rfl
theorem pitchUpdate_paramTable (v : Word32) (s : State) :
    ({ s with pitch := v } : State).paramTable = s.paramTable := rfl
theorem pitchUpdate_frameCnt (v : Word32) (s : State) :
    ({ s with pitch := v } : State).frameCnt = s.frameCnt := rfl
theorem pitchUpdate_frameIdx (v : Word32) (s : State) :
    ({ s with pitch := v } : State).frameIdx = s.frameIdx := rfl
theorem pitchUpdate_ill (v : Word32) (s : State) :
    ({ s with pitch := v } : State).ill = s.ill := rfl
theorem pitchUpdate_out (v : Word32) (s : State) :
    ({ s with pitch := v } : State).out = s.out := rfl
theorem pitchUpdate_seq (v : Word32) (s : State) :
    ({ s with pitch := v } : State).seq = s.seq := rfl
theorem pitchUpdate_inputs (v : Word32) (s : State) :
    ({ s with pitch := v } : State).inputs = s.inputs := rfl

/-! ### setupPitch -/

@[simp] theorem setupPitch_driverPhase (h : Word16) (s : State) :
    (setupPitch h s).driverPhase = s.driverPhase := pitchUpdate_driverPhase _ s
@[simp] theorem setupPitch_outputPhase (h : Word16) (s : State) :
    (setupPitch h s).outputPhase = s.outputPhase := pitchUpdate_outputPhase _ s
@[simp] theorem setupPitch_driverIncrement (h : Word16) (s : State) :
    (setupPitch h s).driverIncrement = s.driverIncrement := pitchUpdate_driverIncrement _ s
@[simp] theorem setupPitch_waveSel (h : Word16) (s : State) :
    (setupPitch h s).waveSel = s.waveSel := pitchUpdate_waveSel _ s
@[simp] theorem setupPitch_lfoPhase (h : Word16) (s : State) :
    (setupPitch h s).lfoPhase = s.lfoPhase := pitchUpdate_lfoPhase _ s
@[simp] theorem setupPitch_lfoIncrement (h : Word16) (s : State) :
    (setupPitch h s).lfoIncrement = s.lfoIncrement := pitchUpdate_lfoIncrement _ s
@[simp] theorem setupPitch_pitch (h : Word16) (s : State) :
    (setupPitch h s).pitch = toReg (pitchcore (operandPitch h)) := rfl
@[simp] theorem setupPitch_staticOffset (h : Word16) (s : State) :
    (setupPitch h s).staticOffset = s.staticOffset := pitchUpdate_staticOffset _ s
@[simp] theorem setupPitch_depth (h : Word16) (s : State) :
    (setupPitch h s).depth = s.depth := pitchUpdate_depth _ s
@[simp] theorem setupPitch_modIn (h : Word16) (s : State) :
    (setupPitch h s).modIn = s.modIn := pitchUpdate_modIn _ s
@[simp] theorem setupPitch_modInDelta (h : Word16) (s : State) :
    (setupPitch h s).modInDelta = s.modInDelta := pitchUpdate_modInDelta _ s
@[simp] theorem setupPitch_paramShape (h : Word16) (s : State) :
    (setupPitch h s).paramShape = s.paramShape := pitchUpdate_paramShape _ s
@[simp] theorem setupPitch_paramShift (h : Word16) (s : State) :
    (setupPitch h s).paramShift = s.paramShift := pitchUpdate_paramShift _ s
@[simp] theorem setupPitch_paramTable (h : Word16) (s : State) :
    (setupPitch h s).paramTable = s.paramTable := pitchUpdate_paramTable _ s
@[simp] theorem setupPitch_frameCnt (h : Word16) (s : State) :
    (setupPitch h s).frameCnt = s.frameCnt := pitchUpdate_frameCnt _ s
@[simp] theorem setupPitch_frameIdx (h : Word16) (s : State) :
    (setupPitch h s).frameIdx = s.frameIdx := pitchUpdate_frameIdx _ s
@[simp] theorem setupPitch_ill (h : Word16) (s : State) :
    (setupPitch h s).ill = s.ill := pitchUpdate_ill _ s
@[simp] theorem setupPitch_out (h : Word16) (s : State) :
    (setupPitch h s).out = s.out := pitchUpdate_out _ s
@[simp] theorem setupPitch_seq (h : Word16) (s : State) :
    (setupPitch h s).seq = s.seq := pitchUpdate_seq _ s
@[simp] theorem setupPitch_inputs (h : Word16) (s : State) :
    (setupPitch h s).inputs = s.inputs := pitchUpdate_inputs _ s

/-! ### setupDelta -/

@[simp] theorem setupDelta_driverPhase (y z : Word32) (s : State) :
    (setupDelta y z s).driverPhase = s.driverPhase := rfl
@[simp] theorem setupDelta_outputPhase (y z : Word32) (s : State) :
    (setupDelta y z s).outputPhase = s.outputPhase := rfl
@[simp] theorem setupDelta_driverIncrement (y z : Word32) (s : State) :
    (setupDelta y z s).driverIncrement = s.driverIncrement := rfl
@[simp] theorem setupDelta_waveSel (y z : Word32) (s : State) :
    (setupDelta y z s).waveSel = s.waveSel := rfl
@[simp] theorem setupDelta_lfoPhase (y z : Word32) (s : State) :
    (setupDelta y z s).lfoPhase = s.lfoPhase := rfl
@[simp] theorem setupDelta_lfoIncrement (y z : Word32) (s : State) :
    (setupDelta y z s).lfoIncrement = s.lfoIncrement := rfl
@[simp] theorem setupDelta_pitch (y z : Word32) (s : State) :
    (setupDelta y z s).pitch = s.pitch := rfl
@[simp] theorem setupDelta_staticOffset (y z : Word32) (s : State) :
    (setupDelta y z s).staticOffset = s.staticOffset := rfl
@[simp] theorem setupDelta_depth (y z : Word32) (s : State) :
    (setupDelta y z s).depth = s.depth := rfl
@[simp] theorem setupDelta_modIn (y z : Word32) (s : State) :
    (setupDelta y z s).modIn = s.modIn := rfl
@[simp] theorem setupDelta_modInDelta (y z : Word32) (s : State) :
    (setupDelta y z s).modInDelta = toReg (moddelta (operandS32 y) s.modIn.toInt (operandFrames z)) := rfl
@[simp] theorem setupDelta_paramShape (y z : Word32) (s : State) :
    (setupDelta y z s).paramShape = s.paramShape := rfl
@[simp] theorem setupDelta_paramShift (y z : Word32) (s : State) :
    (setupDelta y z s).paramShift = s.paramShift := rfl
@[simp] theorem setupDelta_paramTable (y z : Word32) (s : State) :
    (setupDelta y z s).paramTable = s.paramTable := rfl
@[simp] theorem setupDelta_frameCnt (y z : Word32) (s : State) :
    (setupDelta y z s).frameCnt = z := rfl
@[simp] theorem setupDelta_frameIdx (y z : Word32) (s : State) :
    (setupDelta y z s).frameIdx = 0 := rfl
@[simp] theorem setupDelta_ill (y z : Word32) (s : State) :
    (setupDelta y z s).ill = s.ill := rfl
@[simp] theorem setupDelta_out (y z : Word32) (s : State) :
    (setupDelta y z s).out = s.out := rfl
@[simp] theorem setupDelta_seq (y z : Word32) (s : State) :
    (setupDelta y z s).seq = s.seq := rfl
@[simp] theorem setupDelta_inputs (y z : Word32) (s : State) :
    (setupDelta y z s).inputs = s.inputs := rfl

/-! ### frameOutput -/

@[simp] theorem frameOutput_driverPhase (c : Cfg) (s : State) :
    (frameOutput c s).driverPhase = s.driverPhase := rfl
@[simp] theorem frameOutput_outputPhase (c : Cfg) (s : State) :
    (frameOutput c s).outputPhase = s.outputPhase := rfl
@[simp] theorem frameOutput_driverIncrement (c : Cfg) (s : State) :
    (frameOutput c s).driverIncrement = s.driverIncrement := rfl
@[simp] theorem frameOutput_waveSel (c : Cfg) (s : State) :
    (frameOutput c s).waveSel = s.waveSel := rfl
@[simp] theorem frameOutput_lfoPhase (c : Cfg) (s : State) :
    (frameOutput c s).lfoPhase = s.lfoPhase := rfl
@[simp] theorem frameOutput_lfoIncrement (c : Cfg) (s : State) :
    (frameOutput c s).lfoIncrement = s.lfoIncrement := rfl
@[simp] theorem frameOutput_pitch (c : Cfg) (s : State) :
    (frameOutput c s).pitch = s.pitch := rfl
@[simp] theorem frameOutput_staticOffset (c : Cfg) (s : State) :
    (frameOutput c s).staticOffset = s.staticOffset := rfl
@[simp] theorem frameOutput_depth (c : Cfg) (s : State) :
    (frameOutput c s).depth = s.depth := rfl
@[simp] theorem frameOutput_modIn (c : Cfg) (s : State) :
    (frameOutput c s).modIn = s.modIn := rfl
@[simp] theorem frameOutput_modInDelta (c : Cfg) (s : State) :
    (frameOutput c s).modInDelta = s.modInDelta := rfl
@[simp] theorem frameOutput_paramShape (c : Cfg) (s : State) :
    (frameOutput c s).paramShape = s.paramShape := rfl
@[simp] theorem frameOutput_paramShift (c : Cfg) (s : State) :
    (frameOutput c s).paramShift = s.paramShift := rfl
@[simp] theorem frameOutput_paramTable (c : Cfg) (s : State) :
    (frameOutput c s).paramTable = s.paramTable := rfl
@[simp] theorem frameOutput_frameCnt (c : Cfg) (s : State) :
    (frameOutput c s).frameCnt = s.frameCnt := rfl
@[simp] theorem frameOutput_frameIdx (c : Cfg) (s : State) :
    (frameOutput c s).frameIdx = s.frameIdx := rfl
@[simp] theorem frameOutput_ill (c : Cfg) (s : State) :
    (frameOutput c s).ill = s.ill := rfl
@[simp] theorem frameOutput_out (c : Cfg) (s : State) :
    (frameOutput c s).out = s.out ++ [toReg (outconv (wtlook c s.waveSel s.outputPhase.toNat))] := rfl
@[simp] theorem frameOutput_seq (c : Cfg) (s : State) :
    (frameOutput c s).seq = s.seq := rfl
@[simp] theorem frameOutput_inputs (c : Cfg) (s : State) :
    (frameOutput c s).inputs = s.inputs := rfl

/-! ### frameIncrement -/

@[simp] theorem frameIncrement_driverPhase (c : Cfg) (s : State) :
    (frameIncrement c s).driverPhase = s.driverPhase := rfl
@[simp] theorem frameIncrement_outputPhase (c : Cfg) (s : State) :
    (frameIncrement c s).outputPhase = s.outputPhase := rfl
@[simp] theorem frameIncrement_driverIncrement (c : Cfg) (s : State) :
    (frameIncrement c s).driverIncrement = c.pitchConv s.pitch := rfl
@[simp] theorem frameIncrement_waveSel (c : Cfg) (s : State) :
    (frameIncrement c s).waveSel = s.waveSel := rfl
@[simp] theorem frameIncrement_lfoPhase (c : Cfg) (s : State) :
    (frameIncrement c s).lfoPhase = s.lfoPhase := rfl
@[simp] theorem frameIncrement_lfoIncrement (c : Cfg) (s : State) :
    (frameIncrement c s).lfoIncrement = s.lfoIncrement := rfl
@[simp] theorem frameIncrement_pitch (c : Cfg) (s : State) :
    (frameIncrement c s).pitch = s.pitch := rfl
@[simp] theorem frameIncrement_staticOffset (c : Cfg) (s : State) :
    (frameIncrement c s).staticOffset = s.staticOffset := rfl
@[simp] theorem frameIncrement_depth (c : Cfg) (s : State) :
    (frameIncrement c s).depth = s.depth := rfl
@[simp] theorem frameIncrement_modIn (c : Cfg) (s : State) :
    (frameIncrement c s).modIn = s.modIn := rfl
@[simp] theorem frameIncrement_modInDelta (c : Cfg) (s : State) :
    (frameIncrement c s).modInDelta = s.modInDelta := rfl
@[simp] theorem frameIncrement_paramShape (c : Cfg) (s : State) :
    (frameIncrement c s).paramShape = s.paramShape := rfl
@[simp] theorem frameIncrement_paramShift (c : Cfg) (s : State) :
    (frameIncrement c s).paramShift = s.paramShift := rfl
@[simp] theorem frameIncrement_paramTable (c : Cfg) (s : State) :
    (frameIncrement c s).paramTable = s.paramTable := rfl
@[simp] theorem frameIncrement_frameCnt (c : Cfg) (s : State) :
    (frameIncrement c s).frameCnt = s.frameCnt := rfl
@[simp] theorem frameIncrement_frameIdx (c : Cfg) (s : State) :
    (frameIncrement c s).frameIdx = s.frameIdx := rfl
@[simp] theorem frameIncrement_ill (c : Cfg) (s : State) :
    (frameIncrement c s).ill = s.ill := rfl
@[simp] theorem frameIncrement_out (c : Cfg) (s : State) :
    (frameIncrement c s).out = s.out := rfl
@[simp] theorem frameIncrement_seq (c : Cfg) (s : State) :
    (frameIncrement c s).seq = s.seq := rfl
@[simp] theorem frameIncrement_inputs (c : Cfg) (s : State) :
    (frameIncrement c s).inputs = s.inputs := rfl

/-! ### modacc -/

@[simp] theorem modacc_driverPhase (s : State) :
    (modacc s).driverPhase = s.driverPhase := rfl
@[simp] theorem modacc_outputPhase (s : State) :
    (modacc s).outputPhase = s.outputPhase := rfl
@[simp] theorem modacc_driverIncrement (s : State) :
    (modacc s).driverIncrement = s.driverIncrement := rfl
@[simp] theorem modacc_waveSel (s : State) :
    (modacc s).waveSel = s.waveSel := rfl
@[simp] theorem modacc_lfoPhase (s : State) :
    (modacc s).lfoPhase = s.lfoPhase := rfl
@[simp] theorem modacc_lfoIncrement (s : State) :
    (modacc s).lfoIncrement = s.lfoIncrement := rfl
@[simp] theorem modacc_pitch (s : State) :
    (modacc s).pitch = s.pitch := rfl
@[simp] theorem modacc_staticOffset (s : State) :
    (modacc s).staticOffset = s.staticOffset := rfl
@[simp] theorem modacc_depth (s : State) :
    (modacc s).depth = s.depth := rfl
@[simp] theorem modacc_modIn (s : State) :
    (modacc s).modIn = toReg (modaccValue s.modIn.toInt s.modInDelta.toInt) := rfl
@[simp] theorem modacc_modInDelta (s : State) :
    (modacc s).modInDelta = s.modInDelta := rfl
@[simp] theorem modacc_paramShape (s : State) :
    (modacc s).paramShape = s.paramShape := rfl
@[simp] theorem modacc_paramShift (s : State) :
    (modacc s).paramShift = s.paramShift := rfl
@[simp] theorem modacc_paramTable (s : State) :
    (modacc s).paramTable = s.paramTable := rfl
@[simp] theorem modacc_frameCnt (s : State) :
    (modacc s).frameCnt = s.frameCnt := rfl
@[simp] theorem modacc_frameIdx (s : State) :
    (modacc s).frameIdx = s.frameIdx + 1 := rfl
@[simp] theorem modacc_ill (s : State) :
    (modacc s).ill = s.ill := rfl
@[simp] theorem modacc_out (s : State) :
    (modacc s).out = s.out := rfl
@[simp] theorem modacc_seq (s : State) :
    (modacc s).seq = s.seq := rfl
@[simp] theorem modacc_inputs (s : State) :
    (modacc s).inputs = s.inputs := rfl

/-! ### acceptProc -/

@[simp] theorem acceptProc_driverPhase (h : Word16) (y z : Word32) (s : State) :
    (acceptProc h y z s).driverPhase = s.driverPhase := rfl
@[simp] theorem acceptProc_outputPhase (h : Word16) (y z : Word32) (s : State) :
    (acceptProc h y z s).outputPhase = s.outputPhase := rfl
@[simp] theorem acceptProc_driverIncrement (h : Word16) (y z : Word32) (s : State) :
    (acceptProc h y z s).driverIncrement = s.driverIncrement := rfl
@[simp] theorem acceptProc_waveSel (h : Word16) (y z : Word32) (s : State) :
    (acceptProc h y z s).waveSel = s.waveSel := rfl
@[simp] theorem acceptProc_lfoPhase (h : Word16) (y z : Word32) (s : State) :
    (acceptProc h y z s).lfoPhase = s.lfoPhase := rfl
@[simp] theorem acceptProc_lfoIncrement (h : Word16) (y z : Word32) (s : State) :
    (acceptProc h y z s).lfoIncrement = s.lfoIncrement := rfl
@[simp] theorem acceptProc_pitch (h : Word16) (y z : Word32) (s : State) :
    (acceptProc h y z s).pitch = s.pitch := rfl
@[simp] theorem acceptProc_staticOffset (h : Word16) (y z : Word32) (s : State) :
    (acceptProc h y z s).staticOffset = s.staticOffset := rfl
@[simp] theorem acceptProc_depth (h : Word16) (y z : Word32) (s : State) :
    (acceptProc h y z s).depth = s.depth := rfl
@[simp] theorem acceptProc_modIn (h : Word16) (y z : Word32) (s : State) :
    (acceptProc h y z s).modIn = s.modIn := rfl
@[simp] theorem acceptProc_modInDelta (h : Word16) (y z : Word32) (s : State) :
    (acceptProc h y z s).modInDelta = s.modInDelta := rfl
@[simp] theorem acceptProc_paramShape (h : Word16) (y z : Word32) (s : State) :
    (acceptProc h y z s).paramShape = s.paramShape := rfl
@[simp] theorem acceptProc_paramShift (h : Word16) (y z : Word32) (s : State) :
    (acceptProc h y z s).paramShift = s.paramShift := rfl
@[simp] theorem acceptProc_paramTable (h : Word16) (y z : Word32) (s : State) :
    (acceptProc h y z s).paramTable = s.paramTable := rfl
@[simp] theorem acceptProc_frameCnt (h : Word16) (y z : Word32) (s : State) :
    (acceptProc h y z s).frameCnt = s.frameCnt := rfl
@[simp] theorem acceptProc_frameIdx (h : Word16) (y z : Word32) (s : State) :
    (acceptProc h y z s).frameIdx = s.frameIdx := rfl
@[simp] theorem acceptProc_ill (h : Word16) (y z : Word32) (s : State) :
    (acceptProc h y z s).ill = s.ill := rfl
@[simp] theorem acceptProc_out (h : Word16) (y z : Word32) (s : State) :
    (acceptProc h y z s).out = s.out := rfl
@[simp] theorem acceptProc_seq (h : Word16) (y z : Word32) (s : State) :
    (acceptProc h y z s).seq = .setup h y z := rfl
@[simp] theorem acceptProc_inputs (h : Word16) (y z : Word32) (s : State) :
    (acceptProc h y z s).inputs = s.inputs := rfl

/-! ### resetEvent -/

@[simp] theorem resetEvent_inputs (s : State) : (resetEvent s).inputs = s.inputs := rfl
@[simp] theorem resetEvent_seq (s : State) : (resetEvent s).seq = .idle := rfl

theorem resetEvent_eq (s : State) : resetEvent s = { State.reset with inputs := s.inputs } := rfl

/-! ### route -/

@[simp] theorem route_driverPhase (c : Cfg) (idx : Nat) (s : State) :
    (route c idx s).driverPhase = s.driverPhase := rfl
@[simp] theorem route_outputPhase (c : Cfg) (idx : Nat) (s : State) :
    (route c idx s).outputPhase = s.outputPhase := rfl
@[simp] theorem route_driverIncrement (c : Cfg) (idx : Nat) (s : State) :
    (route c idx s).driverIncrement = s.driverIncrement := rfl
@[simp] theorem route_waveSel (c : Cfg) (idx : Nat) (s : State) :
    (route c idx s).waveSel = s.waveSel := rfl
@[simp] theorem route_lfoPhase (c : Cfg) (idx : Nat) (s : State) :
    (route c idx s).lfoPhase = s.lfoPhase := rfl
@[simp] theorem route_lfoIncrement (c : Cfg) (idx : Nat) (s : State) :
    (route c idx s).lfoIncrement = s.lfoIncrement := rfl
@[simp] theorem route_pitch (c : Cfg) (idx : Nat) (s : State) :
    (route c idx s).pitch = s.pitch := rfl
theorem route_staticOffset (c : Cfg) (idx : Nat) (s : State) : (route c idx s).staticOffset =
    if idx = 0 then toReg (routeValue c s.paramShape.toNat) else 0 := rfl
theorem route_depth (c : Cfg) (idx : Nat) (s : State) : (route c idx s).depth =
    if idx = 0 then 0 else toReg (routeValue c s.paramShape.toNat) := rfl
@[simp] theorem route_modIn (c : Cfg) (idx : Nat) (s : State) :
    (route c idx s).modIn = s.modIn := rfl
@[simp] theorem route_modInDelta (c : Cfg) (idx : Nat) (s : State) :
    (route c idx s).modInDelta = s.modInDelta := rfl
@[simp] theorem route_paramShape (c : Cfg) (idx : Nat) (s : State) :
    (route c idx s).paramShape = s.paramShape := rfl
@[simp] theorem route_paramShift (c : Cfg) (idx : Nat) (s : State) :
    (route c idx s).paramShift = s.paramShift := rfl
@[simp] theorem route_paramTable (c : Cfg) (idx : Nat) (s : State) :
    (route c idx s).paramTable = s.paramTable := rfl
@[simp] theorem route_frameCnt (c : Cfg) (idx : Nat) (s : State) :
    (route c idx s).frameCnt = s.frameCnt := rfl
@[simp] theorem route_frameIdx (c : Cfg) (idx : Nat) (s : State) :
    (route c idx s).frameIdx = s.frameIdx := rfl
@[simp] theorem route_ill (c : Cfg) (idx : Nat) (s : State) :
    (route c idx s).ill = s.ill := rfl
@[simp] theorem route_out (c : Cfg) (idx : Nat) (s : State) :
    (route c idx s).out = s.out := rfl
@[simp] theorem route_seq (c : Cfg) (idx : Nat) (s : State) :
    (route c idx s).seq = s.seq := rfl
@[simp] theorem route_inputs (c : Cfg) (idx : Nat) (s : State) :
    (route c idx s).inputs = s.inputs := rfl

end Sys2Proof.Machine
end

