-- ==== Sys2Proof/Laws/Block.lean ====
section
/-! SUPPORT. What a PROC does, register by register: the setup (spec/45_sample_pipeline.md R150), one
frame (R160), and the counted loop of frames (R166). -/

namespace Sys2Proof.Machine

/-! ### The setup -/

section
variable (c : Cfg) (h : Word16) (y z : Word32) (s : State)

theorem procSetup_pitch : (procSetup c h y z s).pitch = toReg (pitchcore (operandPitch h)) := by
  simp [procSetup]
theorem procSetup_waveSel : (procSetup c h y z s).waveSel = carrierOf c s.paramTable.toInt := by
  simp [procSetup]
theorem procSetup_lfoIncrement :
    (procSetup c h y z s).lfoIncrement = readLfoDelta c (lfoIndex s.paramShift.toNat) := by
  simp [procSetup]
theorem procSetup_staticOffset : (procSetup c h y z s).staticOffset =
    if lfoIndex s.paramShift.toNat = 0 then toReg (routeValue c s.paramShape.toNat) else 0 := by
  simp [procSetup, route_staticOffset]
theorem procSetup_depth : (procSetup c h y z s).depth =
    if lfoIndex s.paramShift.toNat = 0 then 0 else toReg (routeValue c s.paramShape.toNat) := by
  simp [procSetup, route_depth]
theorem procSetup_modInDelta : (procSetup c h y z s).modInDelta =
    toReg (moddelta (operandS32 y) s.modIn.toInt (operandFrames z)) := by
  simp [procSetup]
@[simp] theorem procSetup_frameCnt : (procSetup c h y z s).frameCnt = z := by simp [procSetup]
@[simp] theorem procSetup_frameIdx : (procSetup c h y z s).frameIdx = 0 := by simp [procSetup]
@[simp] theorem procSetup_driverPhase : (procSetup c h y z s).driverPhase = s.driverPhase := by
  simp [procSetup]
@[simp] theorem procSetup_outputPhase : (procSetup c h y z s).outputPhase = s.outputPhase := by
  simp [procSetup]
@[simp] theorem procSetup_lfoPhase : (procSetup c h y z s).lfoPhase = s.lfoPhase := by
  simp [procSetup]
@[simp] theorem procSetup_driverIncrement :
    (procSetup c h y z s).driverIncrement = s.driverIncrement := by simp [procSetup]
@[simp] theorem procSetup_modIn : (procSetup c h y z s).modIn = s.modIn := by simp [procSetup]
@[simp] theorem procSetup_paramShape : (procSetup c h y z s).paramShape = s.paramShape := by
  simp [procSetup]
@[simp] theorem procSetup_paramShift : (procSetup c h y z s).paramShift = s.paramShift := by
  simp [procSetup]
@[simp] theorem procSetup_paramTable : (procSetup c h y z s).paramTable = s.paramTable := by
  simp [procSetup]
@[simp] theorem procSetup_ill : (procSetup c h y z s).ill = s.ill := by simp [procSetup]
@[simp] theorem procSetup_out : (procSetup c h y z s).out = s.out := by simp [procSetup]
@[simp] theorem procSetup_seq : (procSetup c h y z s).seq = s.seq := by simp [procSetup]
@[simp] theorem procSetup_inputs : (procSetup c h y z s).inputs = s.inputs := by simp [procSetup]

end

/-! ### One frame -/

section
variable (c : Cfg) (s : State)

/-- The driver phase after step 3 of a frame. -/
def driverAfter : Word32 := advancePhase c s.driverPhase (c.pitchConv s.pitch).toNat

/-- The clipped modulation index of a frame, from the state at its start. -/
def frameIndex : Int :=
  softclip c (modidx (wtlook c (c.N - 1) (driverAfter c s).toNat) s.staticOffset.toInt (lfoout c s))

theorem frame_out : (frame c s).out =
    s.out ++ [toReg (outconv (wtlook c s.waveSel s.outputPhase.toNat))] := by
  simp [frame]
theorem frame_driverIncrement : (frame c s).driverIncrement = c.pitchConv s.pitch := by
  simp [frame]
theorem frame_driverPhase : (frame c s).driverPhase = driverAfter c s := by
  simp [frame, driverAfter]
theorem frame_lfoPhase :
    (frame c s).lfoPhase = advancePhase c s.lfoPhase s.lfoIncrement.toNat := by
  simp [frame]
theorem frame_outputPhase : (frame c s).outputPhase =
    advancePhase c s.outputPhase (modinc (c.pitchConv s.pitch).toNat (frameIndex c s)) := by
  simp [frame, frameIndex, clippedIndex, modSample, lfoout, driverAfter]
theorem frame_modIn :
    (frame c s).modIn = toReg (modaccValue s.modIn.toInt s.modInDelta.toInt) := by
  simp [frame]
theorem frame_frameIdx : (frame c s).frameIdx = s.frameIdx + 1 := by simp [frame]
@[simp] theorem frame_waveSel : (frame c s).waveSel = s.waveSel := by simp [frame]
@[simp] theorem frame_lfoIncrement : (frame c s).lfoIncrement = s.lfoIncrement := by simp [frame]
@[simp] theorem frame_pitch : (frame c s).pitch = s.pitch := by simp [frame]
@[simp] theorem frame_staticOffset : (frame c s).staticOffset = s.staticOffset := by simp [frame]
@[simp] theorem frame_depth : (frame c s).depth = s.depth := by simp [frame]
@[simp] theorem frame_modInDelta : (frame c s).modInDelta = s.modInDelta := by simp [frame]
@[simp] theorem frame_paramShape : (frame c s).paramShape = s.paramShape := by simp [frame]
@[simp] theorem frame_paramShift : (frame c s).paramShift = s.paramShift := by simp [frame]
@[simp] theorem frame_paramTable : (frame c s).paramTable = s.paramTable := by simp [frame]
@[simp] theorem frame_frameCnt : (frame c s).frameCnt = s.frameCnt := by simp [frame]
@[simp] theorem frame_ill : (frame c s).ill = s.ill := by simp [frame]
@[simp] theorem frame_seq : (frame c s).seq = s.seq := by simp [frame]
@[simp] theorem frame_inputs : (frame c s).inputs = s.inputs := by simp [frame]

/-- A frame's sum in the accumulator is the 32-bit addition (R171). -/
theorem frame_modIn_eq_add : (frame c s).modIn = s.modIn + s.modInDelta := by
  rw [frame_modIn, modaccValue, toReg_wrap32s, toReg, BitVec.ofInt_add]
  simp

end

/-! ### The loop -/

theorem frames_succ (c : Cfg) (n : Nat) (s : State) :
    frames c (n + 1) s = frames c n (frame c s) := rfl

theorem frames_add (c : Cfg) (m n : Nat) (s : State) :
    frames c (m + n) s = frames c n (frames c m s) := by
  induction m generalizing s with
  | zero => simp [frames]
  | succ m ih => rw [Nat.succ_add]; exact ih (frame c s)

/-- What one frame keeps, every block of frames keeps. -/
theorem frames_keep {α : Type} (c : Cfg) (f : State → α) (h : ∀ s, f (frame c s) = f s)
    (n : Nat) (s : State) : f (frames c n s) = f s := by
  induction n generalizing s with
  | zero => rfl
  | succ n ih => rw [frames_succ, ih, h]

/-- A property one frame keeps holds after every block of frames. -/
theorem frames_induct (c : Cfg) (P : State → Prop) (h : ∀ s, P s → P (frame c s))
    (n : Nat) (s : State) (hs : P s) : P (frames c n s) := by
  induction n generalizing s with
  | zero => exact hs
  | succ n ih => exact ih _ (h s hs)

/-- A block of `n` frames emits `n` samples and rewrites none. -/
theorem frames_out (c : Cfg) (n : Nat) (s : State) :
    ∃ l, (frames c n s).out = s.out ++ l ∧ l.length = n := by
  induction n generalizing s with
  | zero => exact ⟨[], by simp [frames]⟩
  | succ n ih =>
    obtain ⟨l, hl, hn⟩ := ih (frame c s)
    exact ⟨_ :: l, by rw [frames_succ, hl, frame_out, List.append_assoc]; rfl, by simp [hn]⟩

theorem frames_frameIdx (c : Cfg) (n : Nat) (s : State) :
    (frames c n s).frameIdx = s.frameIdx + BitVec.ofNat 32 n := by
  induction n generalizing s with
  | zero => simp [frames]
  | succ n ih =>
    rw [frames_succ, ih, frame_frameIdx, BitVec.add_assoc, BitVec.ofNat_add]
    congr 1
    exact BitVec.add_comm _ _

/-! ### Agreement: what the samples and the phases depend on -/

/-- Two states agree on everything a sample or a phase of any later frame depends on
(45_sample_pipeline.md R173). -/
structure AudioEq (s t : State) : Prop where
  driverPhase : s.driverPhase = t.driverPhase
  outputPhase : s.outputPhase = t.outputPhase
  lfoPhase : s.lfoPhase = t.lfoPhase
  waveSel : s.waveSel = t.waveSel
  lfoIncrement : s.lfoIncrement = t.lfoIncrement
  pitch : s.pitch = t.pitch
  staticOffset : s.staticOffset = t.staticOffset
  depth : s.depth = t.depth
  out : s.out = t.out

theorem AudioEq.frame {c : Cfg} {s t : State} (h : AudioEq s t) :
    AudioEq (frame c s) (frame c t) := by
  have hd : driverAfter c s = driverAfter c t := by simp [driverAfter, h.driverPhase, h.pitch]
  have hi : frameIndex c s = frameIndex c t := by
    simp [frameIndex, hd, h.staticOffset, lfoout, h.lfoPhase, h.depth]
  constructor <;> simp [frame_out, frame_driverPhase, frame_outputPhase, frame_lfoPhase, hd, hi,
    h.outputPhase, h.lfoPhase, h.waveSel, h.lfoIncrement, h.pitch, h.staticOffset, h.depth, h.out]

theorem AudioEq.frames {c : Cfg} {s t : State} (h : AudioEq s t) (n : Nat) :
    AudioEq (Machine.frames c n s) (Machine.frames c n t) := by
  induction n generalizing s t with
  | zero => exact h
  | succ n ih => exact ih h.frame

end Sys2Proof.Machine
end

