-- ==== Sys2Proof/Laws/Decode.lean ====
section
/-! SUPPORT. What the decoder and the encoder do, said once (spec/30_encoding.md R71 to R77). -/

namespace Sys2Proof

/-! ### The fields as numbers -/

theorem fieldOp_toNat (w : CommandWord) : (fieldOp w).toNat = w.toNat / 2 ^ 120 := by
  have := w.isLt
  rw [fieldOp, BitVec.extractLsb'_toNat, Nat.shiftRight_eq_div_pow]
  omega

theorem fieldRsv_toNat (w : CommandWord) : (fieldRsv w).toNat = w.toNat / 2 ^ 96 % 2 ^ 24 := by
  rw [fieldRsv, BitVec.extractLsb'_toNat, Nat.shiftRight_eq_div_pow]

theorem fieldX_toNat (w : CommandWord) : (fieldX w).toNat = w.toNat / 2 ^ 64 % 2 ^ 32 := by
  rw [fieldX, BitVec.extractLsb'_toNat, Nat.shiftRight_eq_div_pow]

theorem fieldXHigh_toNat (w : CommandWord) : (fieldXHigh w).toNat = w.toNat / 2 ^ 80 % 2 ^ 16 := by
  rw [fieldXHigh, BitVec.extractLsb'_toNat, Nat.shiftRight_eq_div_pow]

theorem fieldPitch_toNat (w : CommandWord) : (fieldPitch w).toNat = w.toNat / 2 ^ 64 % 2 ^ 16 := by
  rw [fieldPitch, BitVec.extractLsb'_toNat, Nat.shiftRight_eq_div_pow]

theorem fieldY_toNat (w : CommandWord) : (fieldY w).toNat = w.toNat / 2 ^ 32 % 2 ^ 32 := by
  rw [fieldY, BitVec.extractLsb'_toNat, Nat.shiftRight_eq_div_pow]

theorem fieldZ_toNat (w : CommandWord) : (fieldZ w).toNat = w.toNat % 2 ^ 32 := by
  rw [fieldZ, BitVec.extractLsb'_toNat, Nat.shiftRight_eq_div_pow]; simp

/-- A packed word as a number (R71). -/
theorem packWord_toNat (op : BitVec 8) (x y z : Word32) :
    (packWord op x y z).toNat =
      op.toNat * 2 ^ 120 + x.toNat * 2 ^ 64 + y.toNat * 2 ^ 32 + z.toNat := by
  have hx := x.isLt
  have hy := y.isLt
  have hz := z.isLt
  have h1 (a b n : Nat) (h : b < 2 ^ n) : a <<< n ||| b = a * 2 ^ n + b := by
    rw [Nat.shiftLeft_eq, ← Nat.shiftLeft_eq, ← Nat.shiftLeft_add_eq_or_of_lt h, Nat.shiftLeft_eq]
  simp only [packWord, BitVec.toNat_append]
  rw [h1 _ _ _ hz, h1 _ _ _ hy, h1 _ _ _ hx, h1 _ _ _ (0#24).isLt]
  simp only [BitVec.toNat_ofNat]
  omega

theorem zeroExtendedPitch_toNat (h : Word16) : (0#16 ++ h).toNat = h.toNat := by
  rw [BitVec.toNat_append]; simp

/-! ### Decoding -/

/-- Everything the decoder can answer. -/
theorem decode_cases (w : CommandWord) (i : Instr) (h : decode w = .ok i) :
    (fieldOp w = 1 ∧ formatN w = true ∧ i = .start) ∨
    (fieldOp w = 2 ∧ formatN w = true ∧ i = .stop) ∨
    (fieldOp w = 3 ∧ formatV w = true ∧ i = .setshape (fieldZ w)) ∨
    (fieldOp w = 4 ∧ formatV w = true ∧ i = .setshift (fieldZ w)) ∨
    (fieldOp w = 5 ∧ formatV w = true ∧ i = .settable (fieldZ w)) ∨
    (fieldOp w = 6 ∧ formatP w = true ∧ i = .proc (fieldPitch w) (fieldY w) (fieldZ w)) := by
  have key (ok : Bool) (j : Instr) (h : decodeFormat ok w j = .ok i) : ok = true ∧ i = j := by
    unfold decodeFormat at h
    split at h
    · cases h; exact ⟨by assumption, rfl⟩
    · cases h
  unfold decode at h
  have hop (n : Nat) (hn : n < 256) (e : (fieldOp w).toNat = n) : fieldOp w = BitVec.ofNat 8 n :=
    BitVec.eq_of_toNat_eq (by rw [e, BitVec.toNat_ofNat]; omega)
  split at h
  · obtain ⟨h1, h2⟩ := key _ _ h
    exact .inl ⟨hop 1 (by decide) ‹_›, h1, h2⟩
  · obtain ⟨h1, h2⟩ := key _ _ h
    exact .inr (.inl ⟨hop 2 (by decide) ‹_›, h1, h2⟩)
  · obtain ⟨h1, h2⟩ := key _ _ h
    exact .inr (.inr (.inl ⟨hop 3 (by decide) ‹_›, h1, h2⟩))
  · obtain ⟨h1, h2⟩ := key _ _ h
    exact .inr (.inr (.inr (.inl ⟨hop 4 (by decide) ‹_›, h1, h2⟩)))
  · obtain ⟨h1, h2⟩ := key _ _ h
    exact .inr (.inr (.inr (.inr (.inl ⟨hop 5 (by decide) ‹_›, h1, h2⟩))))
  · obtain ⟨h1, h2⟩ := key _ _ h
    exact .inr (.inr (.inr (.inr (.inr ⟨hop 6 (by decide) ‹_›, h1, h2⟩))))
  · cases h

/-- The decoder's answer for each defined opcode. -/
theorem decode_of_op (w : CommandWord) :
    (fieldOp w = 1 → decode w = decodeFormat (formatN w) w .start) ∧
    (fieldOp w = 2 → decode w = decodeFormat (formatN w) w .stop) ∧
    (fieldOp w = 3 → decode w = decodeFormat (formatV w) w (.setshape (fieldZ w))) ∧
    (fieldOp w = 4 → decode w = decodeFormat (formatV w) w (.setshift (fieldZ w))) ∧
    (fieldOp w = 5 → decode w = decodeFormat (formatV w) w (.settable (fieldZ w))) ∧
    (fieldOp w = 6 → decode w =
      decodeFormat (formatP w) w (.proc (fieldPitch w) (fieldY w) (fieldZ w))) := by
  refine ⟨?_, ?_, ?_, ?_, ?_, ?_⟩ <;> intro h <;> unfold decode <;> rw [h] <;> rfl

/-- The decoder's answer for every other opcode. -/
theorem decode_of_reserved (w : CommandWord)
    (h : (fieldOp w).toNat = 0 ∨ 7 ≤ (fieldOp w).toNat) :
    decode w = .error (.reservedOpcode (fieldOp w)) := by
  unfold decode
  split <;> first | rfl | omega

theorem decodeFormat_true (w : CommandWord) (i : Instr) : decodeFormat true w i = .ok i := rfl

theorem decodeFormat_false (w : CommandWord) (i : Instr) :
    decodeFormat false w i = .error (.mustBeZero (fieldOp w)) := rfl

/-! ### The formats as numbers -/

theorem formatN_iff (w : CommandWord) : formatN w = true ↔ w.toNat % 2 ^ 120 = 0 := by
  simp only [formatN, Bool.and_eq_true, beq_iff_eq, ← BitVec.toNat_inj, fieldRsv_toNat,
    fieldX_toNat, fieldY_toNat, fieldZ_toNat]
  simp only [BitVec.ofNat_eq_ofNat, BitVec.toNat_ofNat]
  omega

theorem formatV_iff (w : CommandWord) : formatV w = true ↔ w.toNat % 2 ^ 120 / 2 ^ 32 = 0 := by
  simp only [formatV, Bool.and_eq_true, beq_iff_eq, ← BitVec.toNat_inj, fieldRsv_toNat,
    fieldX_toNat, fieldY_toNat]
  simp only [BitVec.ofNat_eq_ofNat, BitVec.toNat_ofNat]
  omega

theorem formatP_iff (w : CommandWord) : formatP w = true ↔ w.toNat % 2 ^ 120 / 2 ^ 80 = 0 := by
  simp only [formatP, Bool.and_eq_true, beq_iff_eq, ← BitVec.toNat_inj, fieldRsv_toNat,
    fieldXHigh_toNat]
  simp only [BitVec.ofNat_eq_ofNat, BitVec.toNat_ofNat]
  omega

/-! ### The opcode map as numbers -/

/-- Masking away the low `k` bits. -/
theorem and_high_mask (x k : Nat) (hx : x < 2 ^ 128) (hk : k ≤ 128) :
    x &&& (2 ^ 128 - 2 ^ k) = x / 2 ^ k * 2 ^ k := by
  have hm : 2 ^ 128 - 2 ^ k = (2 ^ (128 - k) - 1) <<< k := by
    rw [Nat.shiftLeft_eq, Nat.sub_mul, ← pow_add, Nat.sub_add_cancel hk, one_mul]
  have hd : x &&& ((2 ^ (128 - k) - 1) <<< k) = ((x >>> k) &&& (2 ^ (128 - k) - 1)) <<< k := by
    apply Nat.eq_of_testBit_eq
    intro i
    simp only [Nat.testBit_and, Nat.testBit_shiftLeft, Nat.testBit_shiftRight]
    by_cases hi : k ≤ i
    · simp [hi, Nat.add_sub_cancel' hi]
    · simp [hi]
  rw [hm, hd, Nat.and_two_pow_sub_one_eq_mod, Nat.shiftRight_eq_div_pow, Nat.shiftLeft_eq,
    Nat.mod_eq_of_lt]
  rw [Nat.div_lt_iff_lt_mul (by positivity), ← pow_add, Nat.sub_add_cancel hk]
  exact hx

/-- A row whose mask covers the bits from `k` up fixes exactly those bits. -/
theorem covers_iff (r : OpcodeRow) (w : CommandWord) (k : Nat) (hk : k ≤ 128)
    (hm : r.mask.toNat = 2 ^ 128 - 2 ^ k) :
    r.covers w = true ↔ w.toNat / 2 ^ k * 2 ^ k = r.pattern.toNat := by
  rw [OpcodeRow.covers, beq_iff_eq, ← BitVec.toNat_inj, BitVec.toNat_and, hm,
    and_high_mask _ _ w.isLt hk]

theorem rowStart_covers (w : CommandWord) : rowStart.covers w = true ↔ w.toNat = 1 * 2 ^ 120 := by
  rw [covers_iff rowStart w 0 (by decide) (by decide)]; simp [rowStart]

theorem rowStop_covers (w : CommandWord) : rowStop.covers w = true ↔ w.toNat = 2 * 2 ^ 120 := by
  rw [covers_iff rowStop w 0 (by decide) (by decide)]; simp [rowStop]

theorem rowSetshape_covers (w : CommandWord) :
    rowSetshape.covers w = true ↔ w.toNat / 2 ^ 32 = 3 * 2 ^ 88 := by
  rw [covers_iff rowSetshape w 32 (by decide) (by decide)]
  simp only [rowSetshape, BitVec.toNat_ofNat]; omega

theorem rowSetshift_covers (w : CommandWord) :
    rowSetshift.covers w = true ↔ w.toNat / 2 ^ 32 = 4 * 2 ^ 88 := by
  rw [covers_iff rowSetshift w 32 (by decide) (by decide)]
  simp only [rowSetshift, BitVec.toNat_ofNat]; omega

theorem rowSettable_covers (w : CommandWord) :
    rowSettable.covers w = true ↔ w.toNat / 2 ^ 32 = 5 * 2 ^ 88 := by
  rw [covers_iff rowSettable w 32 (by decide) (by decide)]
  simp only [rowSettable, BitVec.toNat_ofNat]; omega

theorem rowProc_covers (w : CommandWord) :
    rowProc.covers w = true ↔ w.toNat / 2 ^ 80 = 6 * 2 ^ 40 := by
  rw [covers_iff rowProc w 80 (by decide) (by decide)]
  simp only [rowProc, BitVec.toNat_ofNat]; omega

/-! ### Bytes -/

theorem leBytes_length (n v : Nat) : (leBytes n v).length = n := by
  induction n generalizing v with
  | zero => rfl
  | succ n ih => simp [leBytes, ih]

/-- The little-endian bytes of a number stand for its low bytes (20_memory.md R57). -/
theorem leNat_leBytes (n v : Nat) : leNat (leBytes n v) = v % 256 ^ n := by
  induction n generalizing v with
  | zero => simp [leBytes, leNat, Nat.mod_one]
  | succ n ih =>
    rw [leBytes, leNat, ih, BitVec.toNat_ofNat, show 256 ^ (n + 1) = 256 * 256 ^ n by ring,
      Nat.mod_mul]

theorem leBytes_getElem? (n v k : Nat) (h : k < n) :
    (leBytes n v)[k]? = some (BitVec.ofNat 8 (v / 256 ^ k)) := by
  induction n generalizing v k with
  | zero => omega
  | succ n ih =>
    cases k with
    | zero => simp [leBytes]
    | succ k =>
      rw [leBytes, List.getElem?_cons_succ, ih (v / 256) k (by omega), Nat.div_div_eq_div_mul,
        pow_succ']

end Sys2Proof
end

