-- ==== Sys2Proof/Laws/PerInstr.lean ====
section
/-! SUPPORT. Facts about every instruction as syntax, one lemma per constructor. -/

/-- The encoding of the instruction lies in its own row of the opcode map
(spec/30_encoding.md R76). -/
def Sys2Proof.Laws.EncodingLiesInItsRow.Statement (i : Sys2Proof.Instr) : Prop :=
  i.row ∈ Sys2Proof.opcodeMap ∧ i.row.covers (Sys2Proof.encode i) = true ∧ i.wellFormed = true

namespace Sys2Proof.Laws

theorem EncodingLiesInItsRow.start : EncodingLiesInItsRow.Statement .start :=
  ⟨by decide, by decide, rfl⟩

theorem EncodingLiesInItsRow.stop : EncodingLiesInItsRow.Statement .stop :=
  ⟨by decide, by decide, rfl⟩

theorem EncodingLiesInItsRow.setshape (z : Word32) :
    EncodingLiesInItsRow.Statement (.setshape z) := by
  refine ⟨by simp [Instr.row, opcodeMap], ?_, rfl⟩
  have := z.isLt
  rw [Instr.row, rowSetshape_covers, encode, packWord_toNat]
  simp only [BitVec.toNat_ofNat, BitVec.ofNat_eq_ofNat]
  omega

theorem EncodingLiesInItsRow.setshift (z : Word32) :
    EncodingLiesInItsRow.Statement (.setshift z) := by
  refine ⟨by simp [Instr.row, opcodeMap], ?_, rfl⟩
  have := z.isLt
  rw [Instr.row, rowSetshift_covers, encode, packWord_toNat]
  simp only [BitVec.toNat_ofNat, BitVec.ofNat_eq_ofNat]
  omega

theorem EncodingLiesInItsRow.settable (z : Word32) :
    EncodingLiesInItsRow.Statement (.settable z) := by
  refine ⟨by simp [Instr.row, opcodeMap], ?_, rfl⟩
  have := z.isLt
  rw [Instr.row, rowSettable_covers, encode, packWord_toNat]
  simp only [BitVec.toNat_ofNat, BitVec.ofNat_eq_ofNat]
  omega

theorem EncodingLiesInItsRow.proc (hostPitch : Word16) (y z : Word32) :
    EncodingLiesInItsRow.Statement (.proc hostPitch y z) := by
  refine ⟨by simp [Instr.row, opcodeMap], ?_, rfl⟩
  have := hostPitch.isLt
  have := y.isLt
  have := z.isLt
  rw [Instr.row, rowProc_covers, encode, packWord_toNat, zeroExtendedPitch_toNat]
  simp only [BitVec.toNat_ofNat]
  omega

end Sys2Proof.Laws
end

