-- ==== Sys2Proof/Laws/Step.lean ====
section
/-! SUPPORT. What a step can do, said once. -/

namespace Sys2Proof.Machine

/-! ### The outcome of each command -/

theorem exec_answers_next (i : Instr) (s : State) : ∃ t, exec i s = .next t := by
  cases i <;> exact ⟨_, rfl⟩

theorem acceptWord_answers_next (w : CommandWord) (s : State) : ∃ t, acceptWord w s = .next t := by
  unfold acceptWord
  split
  · exact exec_answers_next _ _
  · exact ⟨_, rfl⟩

/-! ### The four things a step does -/

theorem step_of_reset (s : State) (rest : List HostInput) (h : s.inputs = .reset :: rest) :
    step s = .next (resetEvent { s with inputs := rest }) := by
  unfold step stepCore; rw [h]

theorem step_of_word (s : State) (w : CommandWord) (rest : List HostInput) (hq : s.seq = .idle)
    (h : s.inputs = .command w :: rest) : step s = acceptWord w { s with inputs := rest } := by
  unfold step stepCore; rw [h, hq]

theorem step_of_idle (s : State) (hq : s.seq = .idle) (h : s.inputs = []) : step s = .next s := by
  unfold step stepCore; rw [h, hq]

theorem step_of_busy (s : State) (hq : s.seq ≠ .idle) (h : s.noReset) :
    step s = .next (advance Config.cfg s) := by
  unfold step stepCore
  unfold State.noReset at h
  split <;> simp_all

/-- A run takes its first step first. -/
theorem core_run_succ (k : Nat) (s t : State) (h : step s = .next t) :
    Sys2Proof.core.run (k + 1) s = Sys2Proof.core.run k t := by
  have e : Sys2Proof.core.step s = .next t := h
  simp only [Host.Core.run, e]

/-- Everything a step can do. -/
theorem step_cases (s t : State) (h : step s = .next t) :
    (∃ rest, s.inputs = .reset :: rest ∧ t = resetEvent { s with inputs := rest }) ∨
    (∃ w rest, s.seq = .idle ∧ s.inputs = .command w :: rest ∧
      acceptWord w { s with inputs := rest } = .next t) ∨
    (s.seq = .idle ∧ s.inputs = [] ∧ t = s) ∨
    (s.seq ≠ .idle ∧ s.noReset ∧ t = advance Config.cfg s) := by
  by_cases hr : s.inputs.head? = some .reset
  · obtain ⟨rest, hrest⟩ : ∃ rest, s.inputs = .reset :: rest := by
      cases hi : s.inputs with
      | nil => simp [hi] at hr
      | cons a l => exact ⟨l, by simp_all⟩
    rw [step_of_reset s rest hrest] at h
    cases h
    exact .inl ⟨rest, hrest, rfl⟩
  · by_cases hq : s.seq = .idle
    · cases hi : s.inputs with
      | nil =>
        rw [step_of_idle s hq hi] at h
        cases h
        exact .inr (.inr (.inl ⟨hq, rfl, rfl⟩))
      | cons a l =>
        cases a with
        | reset => simp [hi] at hr
        | command w =>
          rw [step_of_word s w l hq hi] at h
          exact .inr (.inl ⟨w, l, hq, rfl, h⟩)
    · rw [step_of_busy s hq hr] at h
      cases h
      exact .inr (.inr (.inr ⟨hq, hr, rfl⟩))

/-- Everything accepting a word can do. -/
theorem acceptWord_cases (w : CommandWord) (s t : State) (h : acceptWord w s = .next t) :
    (∃ i, decode w = .ok i ∧ exec i s = .next t) ∨
    (∃ e, decode w = .error e ∧ t = raiseIllegalCommand s) := by
  unfold acceptWord at h
  split at h
  · exact .inl ⟨_, by assumption, h⟩
  · cases h; exact .inr ⟨_, by assumption, rfl⟩

/-- Everything executing a command can do. -/
theorem exec_cases (i : Instr) (s t : State) (h : exec i s = .next t) :
    (i = .start ∧ t = { s with driverPhase := 0, outputPhase := 0 }) ∨
    (i = .stop ∧ t = s) ∨
    (∃ z, i = .setshape z ∧ t = { s with paramShape := clipParam z }) ∨
    (∃ z, i = .setshift z ∧ t = { s with paramShift := clipParam z }) ∨
    (∃ z, i = .settable z ∧ t = { s with paramTable := z }) ∨
    (∃ p y z, i = .proc p y z ∧ t = procBlock Config.cfg p y z s) := by
  cases i with
  | start => cases h; exact .inl ⟨rfl, rfl⟩
  | stop => cases h; exact .inr (.inl ⟨rfl, rfl⟩)
  | setshape z => cases h; exact .inr (.inr (.inl ⟨z, rfl, rfl⟩))
  | setshift z => cases h; exact .inr (.inr (.inr (.inl ⟨z, rfl, rfl⟩)))
  | settable z =>
    cases h
    refine .inr (.inr (.inr (.inr (.inl ⟨z, rfl, ?_⟩))))
    rw [operandS32_eq, toReg, BitVec.ofInt_toInt]
  | proc p y z => cases h; exact .inr (.inr (.inr (.inr (.inr ⟨p, y, z, rfl, rfl⟩))))

/-- The clipped operand as a number (46_host_commands.md R183). -/
theorem clipParam_toNat (z : Word32) : ((clipParam z).toNat : Int) = clamp z.toInt 0 65536 := by
  have := clamp_spec z.toInt 0 65536 (by decide)
  rw [clipParam, operandS32_eq, BitVec.toNat_ofInt]
  omega

end Sys2Proof.Machine
end

