-- ==== Sys2Proof/Laws/Sequencer.lean ====
section
/-! SUPPORT. The numbered steps of the sequencer (spec/10_state.md R38): what one does, and that ten of
them are a frame. -/

namespace Sys2Proof.Machine

/-- `n` numbered steps. -/
def advances (c : Cfg) : Nat → State → State
  | 0, s => s
  | n + 1, s => advances c n (advance c s)

theorem advances_add (c : Cfg) (m n : Nat) (s : State) :
    advances c (m + n) s = advances c n (advances c m s) := by
  induction m generalizing s with
  | zero => simp [advances]
  | succ m ih => rw [Nat.succ_add]; exact ih (advance c s)

/-- No numbered step touches the port. -/
@[simp] theorem advance_inputs (c : Cfg) (s : State) : (advance c s).inputs = s.inputs := by
  unfold advance; split <;> simp

/-- The first nine numbered steps of a frame leave the sequencer busy. -/
theorem advances_busy (c : Cfg) (s : State) (h : s.seq = .step1) (k : Nat) (hk : k < 10) :
    (advances c k s).seq ≠ .idle := by
  interval_cases k <;> simp [advances, advance, h]

/-- The ten numbered steps of a frame are the frame, and the sequencer stands where
`frameIdx = frameCnt` says (45_sample_pipeline.md R160, 10_state.md R39). -/
theorem advances_frame (c : Cfg) (s : State) (h : s.seq = .step1) :
    advances c 10 s = { frame c s with seq := nextFrame (frame c s) } := by
  simp only [advances, advance, h]
  rfl

end Sys2Proof.Machine
end

