-- ==== Sys2Proof/Tests/Slice0.lean ====
section
/-! SUPPORT. The model's own tests. Expected values are from spec/95_test_vectors.md under the test
configuration `Cfg.tiny` (its section 2), or written out from the encoding of spec/30_encoding.md.
Every theorem named `witness_…` shows a concrete state and operands that meet the hypotheses of the
obligation it names, each clause at a boundary value where it has one. -/

namespace Sys2Proof.Tests

open Sys2Proof.Machine

/-! ### Helpers -/

/-- A small state: an idle core after a block, with a non-zero value in most registers, the host
presenting `inputs`. -/
def small (inputs : List HostInput) : State :=
  { State.reset with
    driverPhase := 0x3FFF, outputPhase := 0x1234, lfoPhase := 5, paramShape := 65536,
    paramShift := 697, paramTable := 99, modIn := 7, modInDelta := 3, frameCnt := 2, frameIdx := 2,
    staticOffset := 1, out := [0x00080000, 0x80000000], inputs := inputs }

/-- The same, standing inside a PROC before step 10 of its last frame. -/
def inBlock (inputs : List HostInput) : State :=
  { small inputs with frameIdx := 1, seq := .step10 }

/-- The state an outcome continues in, or the given state. -/
def nextOr (s : State) : Host.Outcome State Fault Refusal → State
  | .next t => t
  | .fault _ => s
  | .refused _ => s

/-- Whether an outcome is a next state. -/
def isNext : Host.Outcome State Fault Refusal → Bool
  | .next _ => true
  | .fault _ => false
  | .refused _ => false

/-- Whether bytes or a word decode to that instruction. -/
def decodesTo (r : Except DecodeError Instr) (i : Instr) : Bool :=
  match r with
  | .ok j => decide (j = i)
  | .error _ => false

/-- Whether the decoder refuses with that name. -/
def refuses (r : Except DecodeError Instr) (e : DecodeError) : Bool :=
  match r with
  | .ok _ => false
  | .error f => decide (f = e)

/-! ### WellFormed: an ill-formed term for each check -/

theorem test_pitch_range_refused :
    AsmLine.wellFormed (.proc (-1) 0 1) = false ∧ AsmLine.wellFormed (.proc 65536 0 1) = false := by
  decide
theorem test_modin_range_refused :
    AsmLine.wellFormed (.proc 0 (-2147483649) 1) = false ∧
    AsmLine.wellFormed (.proc 0 4294967296 1) = false := by decide
theorem test_frames_range_refused :
    AsmLine.wellFormed (.proc 0 0 (-1)) = false ∧
    AsmLine.wellFormed (.proc 0 0 4294967296) = false := by decide
theorem test_setshape_range_refused :
    AsmLine.wellFormed (.setshape 4294967296) = false ∧
    AsmLine.wellFormed (.setshape (-2147483649)) = false := by decide
theorem test_setshift_range_refused :
    AsmLine.wellFormed (.setshift 4294967296) = false ∧
    AsmLine.wellFormed (.setshift (-2147483649)) = false := by decide
theorem test_settable_range_refused :
    AsmLine.wellFormed (.settable 4294967296) = false ∧
    AsmLine.wellFormed (.settable (-2147483649)) = false := by decide
theorem test_bounds_accepted :
    AsmLine.wellFormed (.proc 65535 (-2147483648) 4294967295) = true ∧
    AsmLine.wellFormed (.settable 4294967295) = true := by decide

/-! ### Decoding (95_test_vectors.md section 4, 30_encoding.md R71 to R80) -/

theorem test_decode_start :
    decodesTo (decode 0x01000000000000000000000000000000#128) .start = true := by decide
theorem test_decode_stop :
    decodesTo (decode 0x02000000000000000000000000000000#128) .stop = true := by decide
theorem test_decode_setshape :
    decodesTo (decode 0x030000000000000000000000FFFF8000#128) (.setshape 0xFFFF8000) = true := by
  decide
theorem test_decode_setshift :
    decodesTo (decode 0x04000000000000000000000000010000#128) (.setshift 0x10000) = true := by
  decide
theorem test_decode_settable :
    decodesTo (decode 0x050000000000000000000000FFFFFFFB#128) (.settable 0xFFFFFFFB) = true := by
  decide
theorem test_decode_proc :
    decodesTo (decode 0x06000000000045000000100000000004#128) (.proc 0x4500 0x1000 4) = true := by
  decide
/-- Different bits in every operand byte: a swapped field or byte would show. -/
theorem test_decode_proc_fields :
    decodesTo (decode 0x0600000000001234A5B6C7D8E9FA0B1C#128)
      (.proc 0x1234 0xA5B6C7D8 0xE9FA0B1C) = true := by decide
theorem test_decode_reserved :
    refuses (decode 0#128) (.reservedOpcode 0) = true ∧
    refuses (decode 0x07000000000000000000000000000000#128) (.reservedOpcode 7) = true ∧
    refuses (decode 0xFF000000000000000000000000000000#128) (.reservedOpcode 0xFF) = true := by
  decide
theorem test_decode_must_be_zero :
    refuses (decode 0x01000000000000000000000000000001#128) (.mustBeZero 1) = true ∧
    refuses (decode 0x02000000000000010000000000000000#128) (.mustBeZero 2) = true ∧
    refuses (decode 0x03000000000000000000000100008000#128) (.mustBeZero 3) = true ∧
    refuses (decode 0x05000001000000000000000000000000#128) (.mustBeZero 5) = true ∧
    refuses (decode 0x06000000000145000000000000000001#128) (.mustBeZero 6) = true := by decide
/-- The bytes of `PROC 0x4500, 0x1000, 4`, least significant first (R85). -/
theorem test_decode_bytes :
    decodesTo (decodeBytes [4, 0, 0, 0, 0, 0x10, 0, 0, 0, 0x45, 0, 0, 0, 0, 0, 6])
      (.proc 0x4500 0x1000 4) = true := by decide
theorem test_decode_not_one_word :
    refuses (decodeBytes [1, 0, 0]) (.notOneWord 3) = true := by decide
theorem test_encode_proc :
    encode (.proc 0x4500 0x1000 4) = 0x06000000000045000000100000000004#128 := by decide
theorem test_words_of_word :
    wordsOfWord 0x06000000000045000000100000000004#128 =
      [0x00000004, 0x00001000, 0x00004500, 0x06000000] := by decide
theorem test_table_image_little_endian :
    elements16 [0x1F, 0x06, 0xE1, 0xF9] = [0x061F, 0xF9E1] ∧
    elements32 [0x00, 0x00, 0x78, 0x00, 0, 0, 0xC0, 0] = [0x00780000, 0x00C00000] := by decide

/-! ### The host's two questions -/

/-- Each row's pattern, asked as the host asks it. -/
theorem test_decodeTableWord :
    decodeTableWord 128 0x01000000000000000000000000000000 = some .start ∧
    decodeTableWord 128 0x02000000000000000000000000000000 = some .stop ∧
    decodeTableWord 128 0x03000000000000000000000000000001 = some (.setshape 1) ∧
    decodeTableWord 128 0x04000000000000000000000000000001 = some (.setshift 1) ∧
    decodeTableWord 128 0x05000000000000000000000000000001 = some (.settable 1) ∧
    decodeTableWord 128 0x06000000000045000000100000000004 = some (.proc 0x4500 0x1000 4) ∧
    decodeTableWord 128 0x07000000000000000000000000000000 = none := by decide
/-- Placed where the step takes its next command, the word runs as the first command after reset. -/
theorem test_first_command_after_reset :
    step (State.reset.withFetchWord 128 0x05000000000000000000000000000063) =
      .next { State.reset with paramTable := 99 } := by rfl
theorem test_first_proc_after_reset :
    step (State.reset.withFetchWord 128 0x06000000000045000000100000000004) =
      .next (procBlock Config.cfg 0x4500 0x1000 4 State.reset) := by rfl

/-! ### The assembler (30_encoding.md R86, R87) -/

theorem test_assemble_setshift :
    assembleLine ['S', 'E', 'T', 'S', 'H', 'I', 'F', 'T', ' ', '-', '3', '2', '7', '6', '8'] =
      some [0x040000000000000000000000FFFF8000#128] := by decide
theorem test_assemble_proc_comment :
    assembleLine ['P', 'R', 'O', 'C', ' ', '0', 'x', '4', '5', '0', '0', ',', ' ', '0', ',', '1',
      ' ', ';', 'x'] = some [0x06000000000045000000000000000001#128] := by decide
theorem test_assemble_out_of_range :
    assembleLine ['P', 'R', 'O', 'C', ' ', '6', '5', '5', '3', '6', ',', '0', ',', '1'] = none := by
  decide
theorem test_assemble_program :
    assembleProgram ['S', 'T', 'A', 'R', 'T', '\n', '\n', ';', '\n', 'S', 'T', 'O', 'P'] =
      some [0x01000000000000000000000000000000#128, 0x02000000000000000000000000000000#128] := by
  decide

/-! ### Datapath vectors (95_test_vectors.md section 3) -/

theorem test_sra : [(-7, 1, -4), (-1, 8, -1), (-256, 8, -1), (-257, 8, -2), (255, 8, 0)].all
    (fun v : Int × Nat × Int => sra v.1 v.2.1 == v.2.2) = true := by decide
theorem test_truncdiv : [(-7, 2, -3), (7, 2, 3), (-1, 3, 0)].all
    (fun v : Int × Int × Int => truncdiv v.1 v.2.1 == v.2.2) = true := by decide
theorem test_wraps_and_saturation :
    wrap32s 2147483648 = -2147483648 ∧ wrap32s 4294967295 = -1 ∧ sat32 2147483648 = 2147483647 ∧
    sat32 (-2147483649) = -2147483648 ∧ clamp 99 0 1 = 1 ∧ wrapB Cfg.tiny 0x10005 = 5 ∧
    wrapB Cfg.tiny (-0x10) = 0xFFF0 := by decide
theorem test_phadv : [(0xFFFF, 1, 0), (0x8000, 0x8000, 0), (0x10, -32, 0xFFF0),
    (0x1000, -512, 0x0E00), (0, 196613, 5)].all
    (fun v : Int × Int × Int => phadv Cfg.tiny v.1 v.2.1 == v.2.2) = true := by decide
theorem test_wtlook : [(0, 0, 0), (0, 0x1800, 2231), (0, 0x1FFF, 2890), (0, 0x9010, -1573),
    (0, 0x9800, -2232), (0, 0xF800, -784), (0, 0xFFF0, -7), (1, 0x0800, 4096), (1, 0xF800, 0),
    (1, 0xFFF0, 4572), (2, 0x0400, 256), (2, 0xC7F0, -3588)].all
    (fun v : Nat × Nat × Int => wtlook Cfg.tiny v.1 v.2.1 == v.2.2) = true := by decide +kernel
theorem test_outconv : [(0, 0x00000000), (1, 0x00080000), (-1, 0xFFF80000), (-2048, 0xC0000000),
    (4095, 0x7FF80000), (4096, 0x7FF80000), (-4096, 0x80000000), (-4097, 0x80000000)].all
    (fun v : Int × Word32 => toReg (outconv v.1) == v.2) = true := by decide
theorem test_tabsel : [(-2147483648, 0), (-5, 0), (0, 0), (1, 1), (2, 1), (2147483647, 1)].all
    (fun v : Int × Nat => carrierOf Cfg.tiny v.1 == v.2) = true := by decide
theorem test_lfomap : [(0, 0, 5), (697, 0, 5), (698, 1, 6), (2091, 1, 6), (2092, 2, 7),
    (0x7FFF, 23, 128), (0x8000, 24, 144), (64838, 46, 3072), (64839, 47, 3584),
    (65536, 47, 3584)].all
    (fun v : Int × Nat × Word32 =>
      lfoIndex v.1 == v.2.1 && readLfoDelta Cfg.tiny v.2.1 == v.2.2) = true := by decide +kernel
theorem test_trigen : [(0, 4096), (3, 4096), (4, 4095), (0x2000, 2048), (0x4000, 0),
    (0x7FFF, -4095), (0x8000, -4096), (0x8004, -4095), (0xC000, 0), (0xFFFF, 4095)].all
    (fun v : Nat × Int => trigen Cfg.tiny v.1 == v.2) = true := by decide
theorem test_lfo_scale : [(4096, 0x20001, 131073), (-4095, 0x40001, -262081), (1, 1, 0),
    (-1, 1, -1), (-4096, 0x7FFFFFFF, -2147483647)].all
    (fun v : Int × Int × Int => lfoScale v.1 v.2.1 == v.2.2) = true := by decide
theorem test_softclip : [(0, 0), (0x7FFF, 0), (-1, 0), (0x8000, 0x7800), (-0x8000, -30720),
    (0x7FFFFF, 0x778800), (0xC00000, 0x9C0000), (0x1234567, 0xC8C000), (0x1FFFFFF, 0xEFF000),
    (0x2000000, 0xF00000), (-0x2000000, -0xF00000), (-2147483648, -0xF00000)].all
    (fun v : Int × Int => softclip Cfg.tiny v.1 == v.2) = true := by decide +kernel
theorem test_pitchcore : [(0, -96468992), (0x3C00, -12582912), (0x4480, -699050), (0x44FF, -5461),
    (0x4500, 0), (0x4501, 5461), (0x7F00, 81089877), (0xFFFF, 261439488)].all
    (fun v : Int × Int => pitchcore v.1 == v.2) = true := by decide
theorem test_route_value : [(0, 1), (1, 5), (0x8000, 0x20001), (0xFFFF, 0x3FFFD),
    (0x10000, 0x40001)].all
    (fun v : Nat × Nat => routeValue Cfg.tiny v.1 == v.2) = true := by decide
theorem test_moddelta : [(0x1000, 0, 4, 1024), (0, 0x1000, 4, -1024), (-1, 0, 3, 0), (-7, 0, 2, -3),
    (0x7FFFFFFF, -2147483648, 1, -1), (-2147483648, 0x7FFFFFFF, 2, 0), (100, 0, 0, 0)].all
    (fun v : Int × Int × Nat × Int => moddelta v.1 v.2.1 v.2.2.1 == v.2.2.2) = true := by decide
theorem test_modacc : modaccValue 0x7FFFFFFF 1 = -2147483648 ∧ modaccValue 0 (-1) = -1 := by decide
theorem test_modidx : [(4096, 0x20001, 0x02000100), (1, 1, 0), (-1, 1, -1), (0, 12345, 0),
    (32767, 0x7FFFFFFF, 0x7FFFFFFF), (-32768, 0x7FFFFFFF, -2147483648)].all
    (fun v : Int × Int × Int => modidx v.1 v.2.1 0 == v.2.2) = true := by decide
theorem test_modinc : [(1024, 0x800000, 1536), (1024, -0x800000, 512), (1024, -0x1000000, 0),
    (1024, -0x1800000, -512), (1024, 2004832, 1146), (1, -1, 0), (65535, -0xF00000, 4095),
    (0xFFFFFFF, 0x7FFFFFFF, 34628173679)].all
    (fun v : Int × Int × Int => modinc v.1 v.2.1 == v.2.2) = true := by decide

/-! ### One command on a small state -/

theorem test_start : exec .start (small []) =
    .next { small [] with driverPhase := 0, outputPhase := 0 } := by rfl
theorem test_stop : exec .stop (small []) = .next (small []) := by rfl
theorem test_setshape_clips :
    (nextOr (small []) (exec (.setshape 0x18000) (small []))).paramShape = 65536 ∧
    (nextOr (small []) (exec (.setshape 0xFFFF8000) (small []))).paramShape = 0 := by decide
theorem test_setshift_clips :
    (nextOr (small []) (exec (.setshift 0x7FFFFFFF) (small []))).paramShift = 65536 ∧
    (nextOr (small []) (exec (.setshift 0x8000) (small []))).paramShift = 0x8000 := by decide
theorem test_settable_is_raw :
    (nextOr (small []) (exec (.settable 0xFFFFFFFB) (small []))).paramTable = 0xFFFFFFFB := by decide
/-- Scenario A of 95_test_vectors.md section 5, its one frame under CFG_TINY. -/
theorem test_proc_scenario_a :
    let t := procBlock Cfg.tiny 0x4500 0 1 { State.reset with paramShape := 0x8000 }
    t.out = [0] ∧ t.driverPhase = 0x0400 ∧ t.outputPhase = 0x0478 ∧ t.lfoPhase = 5 := by
  decide +kernel
/-- Frame 5 of program P2 there, from the state after its frame 4: a negative LFO sample. -/
theorem test_proc_lfo_frame :
    let t := frame Cfg.tiny { State.reset with
      pitch := 0x01000000, waveSel := 1, lfoIncrement := 0xE00, depth := 0x40001,
      driverPhase := 0x2800, outputPhase := 0x3D00, lfoPhase := 0x4600 }
    t.out = [0x43000000] ∧ t.driverPhase = 0x3000 ∧ t.outputPhase = 0x42E4 ∧
      t.lfoPhase = 0x5400 := by
  decide +kernel
theorem test_illegal_word : step (small [.command 0x07000000000000000000000000000000#128]) =
    .next { small [] with ill := true } := by rfl
theorem test_reset_event : step (inBlock [.reset]) = .next State.reset := by rfl

/-! ### Witnesses: reset, the step and the port -/

theorem witness_ResetEventAbandonsEverything :
    (inBlock [.reset, .command 0#128]).inputs = .reset :: [.command 0#128] := by decide
theorem witness_StepRunsTheDecodedCommand :
    let w := 0x0600000000000000FFFFFFFF00000001#128
    let s := small [.command w, .reset]
    s.seq = .idle ∧ s.inputs = .command w :: [.reset] ∧ decode w = .ok (.proc 0 (-1) 1) ∧
      (Instr.proc 0 (-1) 1).wellFormed = true := ⟨rfl, rfl, rfl, rfl⟩
theorem witness_IdleCoreRetainsItsState : (small []).seq = .idle ∧ (small []).inputs = [] := by
  decide
theorem witness_BusyCoreLeavesThePortAlone :
    busy (inBlock [.command 0#128]) = true ∧
      (inBlock [.command 0#128]).inputs = .command 0#128 :: [] := by decide

/-! ### Witnesses: decoding and encoding -/

/-- A word for each row, at the ends of its operands, and an illegal one. -/
theorem witness_DecodeIsTheOpcodeMap :
    rowStart.covers 0x01000000000000000000000000000000#128 = true ∧
    rowStop.covers 0x02000000000000000000000000000000#128 = true ∧
    rowSetshape.covers 0x030000000000000000000000FFFFFFFF#128 = true ∧
    rowSetshift.covers 0x04000000000000000000000000000000#128 = true ∧
    rowSettable.covers 0x05000000000000000000000080000000#128 = true ∧
    rowProc.covers 0x060000000000FFFFFFFFFFFFFFFFFFFF#128 = true ∧
    legalWord 0x06000000000100000000000000000000#128 = false ∧
    decode 0x01000000000000000000000000000000#128 = .ok .start ∧ rowStart ∈ opcodeMap := by
  refine ⟨by decide, by decide, by decide, by decide, by decide, by decide, by decide, rfl, ?_⟩
  decide
/-- One word for each way of being illegal, at the lowest bit of its field or an end of its range,
and a word that is not. -/
theorem witness_IllegalWordsRaiseIllegalCommand :
    ((0x00FFFFFFFFFFFFFFFFFFFFFFFFFFFFFF#128).extractLsb' 120 8).toNat = 0 ∧
    7 ≤ ((0x07000000000000000000000000000000#128).extractLsb' 120 8).toNat ∧
    (0x06000001000000000000000000000000#128).extractLsb' 96 24 ≠ 0 ∧
    ((0x05000000000000010000000000000000#128).extractLsb' 120 8).toNat ≤ 5 ∧
    (0x05000000000000010000000000000000#128).extractLsb' 64 32 ≠ 0 ∧
    (0x05000000000000000000000100000000#128).extractLsb' 32 32 ≠ 0 ∧
    ((0x02000000000000000000000000000001#128).extractLsb' 120 8).toNat ≤ 2 ∧
    (0x02000000000000000000000000000001#128).extractLsb' 0 32 ≠ 0 ∧
    ((0x06000000000100000000000000000000#128).extractLsb' 120 8).toNat = 6 ∧
    (0x06000000000100000000000000000000#128).extractLsb' 80 16 ≠ 0 ∧
    decodesTo (decode 0x060000000000FFFF0000000000000000#128) (.proc 0xFFFF 0 0) = true := by decide
theorem witness_DecodeOfEncodeIsIdentity :
    (Instr.proc 0xFFFF 0x80000000 0xFFFFFFFF).wellFormed = true := by decide
theorem witness_LegalWordIsEncodingOfItsCommand :
    decode 0x030000000000000000000000FFFFFFFF#128 = .ok (.setshape 0xFFFFFFFF) := by rfl
theorem witness_WordIsCarriedLittleEndian :
    (15 < 16) ∧ (bytesOfWord 0x06000000000045000000100000000004#128)[15]? = some 6 := by decide
theorem witness_AssemblerEmitsOnlyLegalWords :
    (∀ v, AsmLine.proc 65535 4294967295 4294967295 ≠ .word v) ∧
    assemble (.proc 65535 4294967295 4294967295) =
      some 0x060000000000FFFFFFFFFFFFFFFFFFFF#128 ∧
    assemble (.setshape (-2147483648)) = some 0x03000000000000000000000080000000#128 ∧
    assemble (.setshift 4294967296) = none ∧ assemble (.settable (-2147483649)) = none :=
  ⟨fun _ h => AsmLine.noConfusion h, by decide, by decide, by decide, by decide⟩

/-! ### Witnesses: START, STOP and the SET commands -/

theorem witness_StartZeroesTheVoicePhases :
    let w := 0x01000000000000000000000000000001#128
    w.extractLsb' 120 8 = 0x01 ∧ w.extractLsb' 0 120 ≠ 0 := by decide
theorem witness_StopChangesNothing :
    let w := 0x02800000000000000000000000000000#128
    w.extractLsb' 120 8 = 0x02 ∧ w.extractLsb' 0 120 ≠ 0 := by decide
theorem witness_SetshapeStoresTheClippedOperand :
    let w := 0x03000000000000000000000100000000#128
    w.extractLsb' 120 8 = 0x03 ∧ w.extractLsb' 32 88 ≠ 0 := by decide
theorem witness_SetshiftStoresTheClippedOperand :
    let w := 0x04000000000000010000000000000000#128
    w.extractLsb' 120 8 = 0x04 ∧ w.extractLsb' 32 88 ≠ 0 := by decide
theorem witness_SettableStoresTheRawOperand :
    let w := 0x05800000000000000000000000000000#128
    w.extractLsb' 120 8 = 0x05 ∧ w.extractLsb' 32 88 ≠ 0 := by decide
theorem witness_SetCommandsAreIdempotent :
    Instr.setshift 0x10001 = .setshape 0x10001 ∨ Instr.setshift 0x10001 = .setshift 0x10001 ∨
      Instr.setshift 0x10001 = .settable 0x10001 := by decide
theorem witness_StartAndSetCommandsCommute :
    (Instr.start = .start ∨ (∃ z, Instr.start = .setshape z) ∨ (∃ z, Instr.start = .setshift z) ∨
      ∃ z, Instr.start = .settable z) ∧
    (Instr.settable 5 = .start ∨ (∃ z, Instr.settable 5 = .setshape z) ∨
      (∃ z, Instr.settable 5 = .setshift z) ∨ ∃ z, Instr.settable 5 = .settable z) ∧
    Instr.start.row ≠ (Instr.settable 5).row :=
  ⟨.inl rfl, .inr (.inr (.inr ⟨5, rfl⟩)), by decide⟩

/-! ### Witnesses: PROC -/

/-- The largest shape, with the shift on either side of the threshold. -/
theorem witness_ProcRoutesExactlyOneModulation :
    (small []).paramShape.toNat ≤ 65536 ∧ (small []).paramShift.toNat ≤ 697 ∧
    697 < ({ small [] with paramShift := 698 } : State).paramShift.toNat := by decide
theorem witness_ProcWritesTheModulationDelta :
    (0 : Word32) = 0 ∧ (0xFFFFFFFF : Word32) ≠ 0 := by decide
/-- `2^14` is the least a phase range can be (00_scope.md R5), so `2^14 - 1` is a phase of every
configuration. -/
theorem witness_ProcAdvancesTheFreePhasesLinearly :
    inPhaseRange Config.cfg (small []).driverPhase ∧ inPhaseRange Config.cfg (small []).lfoPhase ∧
      (1 : Word32) ≠ 0 := by
  have h : 2 ^ 14 ≤ 2 ^ Config.cfg.B := Nat.pow_le_pow_right (by decide) Config.cfg.fourteen_le_B
  refine ⟨?_, ?_, by decide⟩ <;> exact lt_of_lt_of_le (by decide) h
theorem witness_ProcAccumulatesTheModulationInput : (3 : Word32) ≠ 0 := by decide
theorem witness_FirstSampleAfterStartIsElementZero : (1 : Word32) ≠ 0 := by decide
theorem witness_SplittingABlockKeepsSamplesAndPhases :
    (0xFFFFFFFE : Word32).toNat + (1 : Word32).toNat = (0xFFFFFFFF : Word32).toNat ∧
    (0 : Word32).toNat + (4 : Word32).toNat = (4 : Word32).toNat := by decide
theorem witness_CachedIncrementIsEquivalent : (1 : Word32) ≠ 0 := by decide
theorem witness_NumberedStepsRefineTheBlock :
    (small [.command 0#128]).seq = .idle ∧ (small [.command 0#128]).noReset ∧
      0 < 1 + 10 * (0 : Word32).toNat ∧ 10 < 1 + 10 * (1 : Word32).toNat := by
  refine ⟨rfl, ?_, by decide, by decide⟩
  unfold State.noReset; decide

/-! ### Witnesses: the datapath operations -/

theorem witness_PhaseAdvanceWraps :
    (0 : Int) ≤ 65535 ∧ (65535 : Int) < 2 ^ Cfg.tiny.B ∧ (65535 : Int) + 1 = 2 ^ Cfg.tiny.B := by
  decide
theorem witness_PhaseAdvancesAccumulate :
    (0 : Int) ≤ 0x1234 ∧ (0x1234 : Int) < 2 ^ Cfg.tiny.B ∧
      [0x5555, 0x5555, 0x5555, 0x5555, 0x5555, 0x5555, 0x5555].foldl (phadv Cfg.tiny) 0x1234 =
        0x6787 := by decide
/-- The last table, the last phase; a phase at fraction 0; the cyclic successor. -/
theorem witness_WavetableReadInterpolates :
    2 < Cfg.tiny.N ∧ 65535 < 2 ^ Cfg.tiny.B ∧
    61440 / 2 ^ (Cfg.tiny.B - Cfg.tiny.T - 8) % 256 = 0 ∧
    61440 / 2 ^ (Cfg.tiny.B - Cfg.tiny.T) = 2 ^ Cfg.tiny.T - 1 := by decide
theorem witness_OutputConversionClipsAndScales :
    (-32768 : Int) ≤ -32768 ∧ (-32768 : Int) ≤ 32767 ∧ (-32768 : Int) ≤ 4095 := by decide
theorem witness_LfoIndexRoundsToNearest :
    65536 ≤ 65536 ∧ 697 ≤ 697 ∧ lfoIndex 697 = 0 ∧ lfoIndex 698 = 1 ∧ lfoIndex 2092 = 2 ∧
      lfoIndex 64839 = 47 := by decide
theorem witness_LfoRateGrowsWithTheIndex : 46 < 47 ∧ 47 ≤ 47 ∧ 0 < 1 := by decide
/-- The last phase of either half and the first of the second. -/
theorem witness_TriangleFallsThenRises :
    32767 < 2 ^ (Cfg.tiny.B - 1) ∧ 2 ^ (Cfg.tiny.B - 1) ≤ 32768 ∧ 65535 < 2 ^ Cfg.tiny.B := by
  decide
/-- Both ends of the triangle, and no depth. -/
theorem witness_LfoOutputIsBoundedByDepth :
    let s := { small [] with depth := 0x7FFFFFFF, lfoPhase := 0x8000 }
    inPhaseRange Cfg.tiny s.lfoPhase ∧ 0 ≤ s.depth.toInt ∧
    trigen Cfg.tiny s.lfoPhase.toNat = -4096 ∧ trigen Cfg.tiny (0 : Word32).toNat = 4096 ∧
    (small []).depth = 0 := by
  refine ⟨?_, by decide, by decide, by decide, by decide⟩
  show (0x8000 : Word32).toNat < 2 ^ Cfg.tiny.B
  decide
/-- The last value below saturation, the first at it, and the most negative word. -/
theorem witness_SoftClipInterpolatesItsTable :
    (-2 ^ 31 : Int) ≤ -2 ^ 31 ∧ (-2 ^ 31 : Int) < 2 ^ 31 ∧
    (0x1FFFFFF : Int).natAbs / 2 ^ Cfg.tiny.S < Cfg.tiny.K - 1 ∧
    Cfg.tiny.K - 1 ≤ (0x2000000 : Int).natAbs / 2 ^ Cfg.tiny.S ∧
    Cfg.tiny.K - 1 ≤ (-2 ^ 31 : Int).natAbs / 2 ^ Cfg.tiny.S := by decide
theorem witness_SoftClipIsOddMonotoneAndBounded :
    (-1 : Int) ≤ 0 ∧ ((Cfg.tiny.K : Int) - 1) * 2 ^ Cfg.tiny.S ≤ |(-0x2000000 : Int)| ∧
      ((Cfg.tiny.K : Int) - 1) * 2 ^ Cfg.tiny.S ≤ 2 ^ 31 := by decide
/-- The values around either bound. -/
theorem witness_RawIndexSaturates :
    (-32768 : Int) * (0x100001 + 0) / 16 < -2147483648 ∧
    (-32768 : Int) * (0x100000 + 0) / 16 = -2147483648 ∧
    (2147483647 : Int) < -32768 * (-0x100000 + 0) / 16 ∧
    (-2147483648 : Int) ≤ 16 * (0x7FFFFFFF + 0) / 16 ∧
    (16 : Int) * (0x7FFFFFFF + 0) / 16 = 2147483647 := by decide
theorem witness_IndexMagnitudeGrowsWithShape : 0 ≤ 65536 ∧ 65536 ≤ 65536 := by decide
theorem witness_ModulatedIncrementIsSigned :
    (0 : Int) ≤ 0xFFFFFFFF ∧ (0xFFFFFFFF : Int) < 2 ^ 32 ∧ (-2 ^ 31 : Int) < -16777217 ∧
    (-16777217 : Int) < 2 ^ 31 ∧ (-16777217 : Int) < -16777216 ∧ (0 : Int) < 0xFFFFFFFF := by decide

/-! ### Witnesses: invariants and whole-machine rules -/

theorem small_inv_nil : (small []).Inv Config.cfg := by
  have h : 2 ^ 14 ≤ 2 ^ Config.cfg.B := Nat.pow_le_pow_right (by decide) Config.cfg.fourteen_le_B
  have hr := Config.cfg.one_le_routeMin
  refine ⟨?_, ?_, ?_, ?_, ?_, Nat.zero_le _, ?_, Nat.zero_le _, .inr rfl, by decide, by decide,
    le_refl _, fun h => absurd h (by decide), ?_⟩
  · exact lt_of_lt_of_le (by decide) h
  · exact lt_of_lt_of_le (by decide) h
  · exact lt_of_lt_of_le (by decide) h
  · exact lt_of_lt_of_le (by decide) h
  · exact lt_of_lt_of_le (by decide) h
  · exact Nat.le_trans hr (Nat.le_add_right _ _)
  · intro v hv
    simp only [small, List.mem_cons, List.not_mem_nil, or_false] at hv
    rcases hv with rfl | rfl <;> (unfold outputWord; decide)

theorem small_inv (inputs : List HostInput) : (small inputs).Inv Config.cfg := by
  obtain ⟨h1, h2, h3, h4, h5, h6, h7, h8, h9, h10, h11, h12, h13, h14⟩ := small_inv_nil
  exact ⟨h1, h2, h3, h4, h5, h6, h7, h8, h9, h10, h11, h12, h13, h14⟩

theorem inBlock_inv (inputs : List HostInput) : (inBlock inputs).Inv Config.cfg := by
  obtain ⟨h1, h2, h3, h4, h5, h6, h7, h8, h9, h10, h11, h12, h13, h14⟩ := small_inv_nil
  have h : (inBlock []).frameIdx.toNat < (inBlock []).frameCnt.toNat := by decide
  exact ⟨h1, h2, h3, h4, h5, h6, h7, h8, h9, h10, h11, Nat.le_of_lt h, fun _ => h, h14⟩

/-- A PROC of one frame on an idle core, the last step of a frame, and a reset. -/
theorem witness_EveryStepKeepsTheInvariant :
    ((small [.command 0x06000000000045000000100000000001#128]).Inv Config.cfg ∧
      ∃ t, step (small [.command 0x06000000000045000000100000000001#128]) = .next t) ∧
    ((inBlock []).Inv Config.cfg ∧ ∃ t, step (inBlock []) = .next t) ∧
    ((inBlock [.reset]).Inv Config.cfg ∧ ∃ t, step (inBlock [.reset]) = .next t) :=
  ⟨⟨small_inv _, _, rfl⟩, ⟨inBlock_inv _, _, rfl⟩, inBlock_inv _, _, rfl⟩
/-- The two states differ in every register R189 calls hidden. -/
theorem witness_HiddenRegistersAreUnobservable :
    (small [.command 0#128]).SameToHost
      { small [.command 0#128] with
        driverIncrement := 1, waveSel := 9, lfoIncrement := 1, pitch := 1, staticOffset := 9,
        depth := 1, modIn := 1, modInDelta := 1, frameCnt := 1, frameIdx := 1 } := by
  constructor <;> first | rfl | exact ⟨rfl, rfl⟩
/-- An illegal word on a core whose flag is 0, and a legal one on a core whose flag is 1. -/
theorem witness_IllIsStickyAndOnlyIllegalWordsSetIt :
    (∃ t, step (small [.command 0#128]) = .next t ∧ (small [.command 0#128]).noReset ∧
      (small [.command 0#128]).ill = false ∧ t.ill = true) ∧
    ∃ t, step { small [.command 0x02000000000000000000000000000000#128] with ill := true } =
      .next t := by
  refine ⟨⟨_, rfl, ?_, rfl, rfl⟩, _, rfl⟩
  unfold State.noReset; decide
theorem witness_OutputStreamIsAppendOnly :
    ∃ t, step { small [] with seq := .step1 } = .next t ∧ (small []).noReset := by
  refine ⟨_, rfl, ?_⟩
  unfold State.noReset; decide
/-- START changes the voice phases, and each SET command its own parameter. -/
theorem witness_RegistersHaveOnlyTheirWriters :
    (∀ l, (small l).seq = .idle ∧ (small l).inputs = l) ∧
    (∃ t, step (small [.command 0x01000000000000000000000000000000#128]) = .next t ∧
      t.driverPhase ≠ (small []).driverPhase) ∧
    (∃ t, step (small [.command 0x03000000000000000000000000000000#128]) = .next t ∧
      t.paramShape ≠ (small []).paramShape) ∧
    (∃ t, step (small [.command 0x04000000000000000000000000000000#128]) = .next t ∧
      t.paramShift ≠ (small []).paramShift) ∧
    (∃ t, step (small [.command 0x05000000000000000000000000000000#128]) = .next t ∧
      t.paramTable ≠ (small []).paramTable) :=
  ⟨fun _ => ⟨rfl, rfl⟩, ⟨_, rfl, by decide⟩, ⟨_, rfl, by decide⟩, ⟨_, rfl, by decide⟩,
    ⟨_, rfl, by decide⟩⟩
/-- A PROC of one frame appends a sample and, at LFO index 47, whose increment is above another and so
not 0, advances the LFO phase. -/
theorem witness_RegistersHaveOnlyTheirWriters_proc :
    let s := { small [.command 0x06000000000045000000100000000001#128] with paramShift := 65536 }
    ∃ t, step s = .next t ∧ t.out ≠ s.out ∧ t.lfoPhase ≠ s.lfoPhase := by
  let s := { small [] with paramShift := 65536 }
  refine ⟨procBlock Config.cfg 0x4500 0x1000 1 s, rfl, ?_, ?_⟩
  · obtain ⟨l, h, hn⟩ := frames_out Config.cfg 1 (procSetup Config.cfg 0x4500 0x1000 1 s)
    intro he
    have h' : (procBlock Config.cfg 0x4500 0x1000 1 s).out = s.out ++ l := h
    have := congrArg List.length (h'.symm.trans he)
    rw [List.length_append, hn] at this
    change s.out.length + 1 = s.out.length at this
    omega
  · intro he
    have h1 : (procBlock Config.cfg 0x4500 0x1000 1 s).lfoPhase =
        advancePhase Config.cfg 5 (readLfoDelta Config.cfg 47).toNat := by
      show (frame Config.cfg (procSetup Config.cfg 0x4500 0x1000 1 s)).lfoPhase = _
      have hi : lfoIndex s.paramShift.toNat = 47 := by decide
      rw [frame_lfoPhase, procSetup_lfoPhase, procSetup_lfoIncrement, hi]
      rfl
    have h2 := advancePhase_nat Config.cfg 5 (readLfoDelta Config.cfg 47).toNat
    rw [← h1] at h2
    have h3 : (procBlock Config.cfg 0x4500 0x1000 1 s).lfoPhase.toNat = 5 :=
      congrArg BitVec.toNat he
    have h4 := (lfoDelta_element Config.cfg 47 (by decide)).2
    have h5 : 0 < (readLfoDelta Config.cfg 47).toNat := by
      obtain ⟨ha, -⟩ := lfoDelta_element Config.cfg 46 (by decide)
      obtain ⟨hb, -⟩ := lfoDelta_element Config.cfg 47 (by decide)
      obtain ⟨hi, ei⟩ := List.getElem?_eq_some_iff.1 ha
      obtain ⟨hj, ej⟩ := List.getElem?_eq_some_iff.1 hb
      have := List.pairwise_iff_getElem.1 Config.cfg.lfoDelta_sorted 46 47 hi hj (by decide)
      rw [ei, ej] at this
      omega
    have h6 : (5 : Word32).toNat = 5 := rfl
    have h7 : 2 ^ 14 ≤ 2 ^ Config.cfg.B :=
      Nat.pow_le_pow_right (by decide) Config.cfg.fourteen_le_B
    rw [h3, h6] at h2
    generalize (readLfoDelta Config.cfg 47).toNat = d at *
    generalize 2 ^ Config.cfg.B = m at *
    rcases lt_or_ge (5 + d) m with h | h
    · rw [Nat.mod_eq_of_lt h] at h2; omega
    · rw [Nat.mod_eq_sub_mod h, Nat.mod_eq_of_lt (by omega)] at h2; omega
theorem witness_FrameIgnoresTheModulationInput :
    let t := { small [] with driverPhase := 1, lfoPhase := 1, modIn := 1, depth := 1 }
    t.waveSel = (small []).waveSel ∧ t.outputPhase = (small []).outputPhase := by decide

end Sys2Proof.Tests
end

section
/-! PROOFS. The family 10_state.md: the registers, the sequencer's numbered steps, and what every
step keeps. -/

namespace Sys2Proof.Machine

/-! ### Reset -/

/-- The reset state meets the invariant under every configuration: every register is 0. -/
theorem reset_inv (c : Cfg) : State.reset.Inv c where
  driverPhase := Nat.two_pow_pos _
  outputPhase := Nat.two_pow_pos _
  lfoPhase := Nat.two_pow_pos _
  driverIncrement := Nat.two_pow_pos _
  lfoIncrement := Nat.two_pow_pos _
  waveSel := Nat.zero_le _
  staticOffset := Nat.zero_le _
  depth := Nat.zero_le _
  exclusive := .inl rfl
  paramShape := Nat.zero_le _
  paramShift := Nat.zero_le _
  frameIdx := le_rfl
  frameLeft := fun h => absurd h (by decide)
  out := fun _ h => absurd h List.not_mem_nil

/-- Settles O1: each register's value is read off the definition of the reset state. -/
theorem resetLeavesTheStatedValues : Obligations.ResetLeavesTheStatedValues :=
  ⟨rfl, rfl, rfl, rfl, rfl, rfl, rfl, rfl, rfl, rfl, rfl, rfl, rfl, rfl, rfl, rfl, rfl, rfl, rfl⟩

/-- Settles O51, as the case of the installed configuration. -/
theorem resetSatisfiesTheInvariant : Obligations.ResetSatisfiesTheInvariant :=
  reset_inv Config.cfg

/-! ### The LFO delta table -/

/-- LFO_DELTA is strictly increasing on its 48 entries (43_lfo_subsystem.md R131). -/
theorem readLfoDelta_lt (c : Cfg) (i j : Nat) (hij : i < j) (hj : j ≤ 47) :
    (readLfoDelta c i).toNat < (readLfoDelta c j).toNat := by
  obtain ⟨hi', ei⟩ := List.getElem?_eq_some_iff.1 (lfoDelta_element c i (by omega)).1
  obtain ⟨hj', ej⟩ := List.getElem?_eq_some_iff.1 (lfoDelta_element c j hj).1
  rw [← ei, ← ej]
  exact List.pairwise_iff_getElem.1 c.lfoDelta_sorted i j hi' hj' hij

/-- Settles O43, from the order of the table and the bound on its entries. -/
theorem lfoRateGrowsWithTheIndex : Obligations.LfoRateGrowsWithTheIndex :=
  fun c i j hij hj => ⟨readLfoDelta_lt c i j hij hj, (lfoDelta_element c j hj).2⟩

/-! ### A block run by the numbered steps (R38) -/

@[simp] theorem advances_inputs (c : Cfg) (n : Nat) (s : State) :
    (advances c n s).inputs = s.inputs := by
  induction n generalizing s with
  | zero => rfl
  | succ n ih => rw [advances, ih, advance_inputs]

/-- While the numbered steps keep the sequencer busy and no reset is next, they are what a run of the
machine does. -/
theorem core_run_eq_advances (n : Nat) (s : State) (hr : s.noReset)
    (hb : ∀ k < n, (advances Config.cfg k s).seq ≠ .idle) :
    Sys2Proof.core.run n s = .next (advances Config.cfg n s) := by
  induction n generalizing s with
  | zero => rfl
  | succ n ih =>
    have hstep : step s = .next (advance Config.cfg s) := step_of_busy s (hb 0 n.succ_pos) hr
    have hr' : (advance Config.cfg s).noReset := by rwa [State.noReset, advance_inputs]
    rw [core_run_succ n s _ hstep]
    exact ih _ hr' fun k hk => hb (k + 1) (Nat.succ_lt_succ hk)

theorem nextFrame_of_eq (s : State) (h : s.frameIdx.toNat = s.frameCnt.toNat) :
    nextFrame s = .idle :=
  if_pos (BitVec.eq_of_toNat_eq h)

theorem nextFrame_of_lt (s : State) (h : s.frameIdx.toNat < s.frameCnt.toNat) :
    nextFrame s = .step1 :=
  if_neg fun he => h.ne (congrArg BitVec.toNat he)

/-- Inside a block the counter of completed frames does not wrap (10_state.md R39). -/
theorem frameIdx_succ_toNat (s : State) (h : s.frameIdx.toNat < s.frameCnt.toNat) :
    (s.frameIdx + 1).toNat = s.frameIdx.toNat + 1 := by
  bv_omega

/-- A frame takes one off the frames left. -/
theorem frame_framesLeft (c : Cfg) (n : Nat) (s : State)
    (hn : s.frameIdx.toNat + (n + 1) = s.frameCnt.toNat) :
    (frame c s).frameIdx.toNat + n = (frame c s).frameCnt.toNat := by
  rw [frame_frameIdx, frame_frameCnt, frameIdx_succ_toNat s (by omega)]
  omega

/-- From the boundary before a frame to the boundary after it. -/
theorem advances_frame_boundary (c : Cfg) (s : State)
    (h : s.frameIdx.toNat < s.frameCnt.toNat) :
    advances c 10 { s with seq := nextFrame s } =
      { frame c s with seq := nextFrame (frame c s) } := by
  have hframe : ∀ q, frame c { s with seq := q } = { frame c s with seq := q } := fun _ => rfl
  rw [nextFrame_of_lt s h, advances_frame c _ rfl, hframe]
  rfl

/-- From the boundary before a frame, with `n` frames left, `10 n` numbered steps are the `n` frames
and end idle. -/
theorem advances_frames (c : Cfg) (n : Nat) (s : State)
    (hn : s.frameIdx.toNat + n = s.frameCnt.toNat) :
    advances c (10 * n) { s with seq := nextFrame s } = { frames c n s with seq := .idle } := by
  induction n generalizing s with
  | zero => rw [nextFrame_of_eq s hn]; rfl
  | succ n ih =>
    rw [show 10 * (n + 1) = 10 + 10 * n by ring, advances_add,
      advances_frame_boundary c s (by omega), ih _ (frame_framesLeft c n s hn), frames_succ]

/-- Before the last of those steps the sequencer is busy. -/
theorem advances_frames_busy (c : Cfg) (n : Nat) (s : State)
    (hn : s.frameIdx.toNat + n = s.frameCnt.toNat) (k : Nat) (hk : k < 10 * n) :
    (advances c k { s with seq := nextFrame s }).seq ≠ .idle := by
  induction n generalizing s k with
  | zero => omega
  | succ n ih =>
    have hlt : s.frameIdx.toNat < s.frameCnt.toNat := by omega
    rcases lt_or_ge k 10 with hk10 | hk10
    · rw [nextFrame_of_lt s hlt]
      exact advances_busy c _ rfl k hk10
    · obtain ⟨j, rfl⟩ := Nat.exists_eq_add_of_le hk10
      rw [advances_add, advances_frame_boundary c s hlt]
      exact ih _ (frame_framesLeft c n s hn) j (by omega)

/-- The setup as a numbered step is the setup of the block, before its first frame. -/
theorem advance_acceptProc (c : Cfg) (h : Word16) (y z : Word32) (s : State) :
    advance c (acceptProc h y z s) =
      { procSetup c h y z s with seq := nextFrame (procSetup c h y z s) } := by
  have hsetup : procSetup c h y z (acceptProc h y z s) =
      { procSetup c h y z s with seq := .setup h y z } := rfl
  simp only [advance, acceptProc_seq, hsetup]
  rfl

@[simp] theorem procBlock_seq (c : Cfg) (h : Word16) (y z : Word32) (s : State) :
    (procBlock c h y z s).seq = s.seq := by
  rw [procBlock, frames_keep c State.seq (frame_seq c), procSetup_seq]

/-- The block's count of frames is what is left at its first boundary. -/
theorem procSetup_framesLeft (c : Cfg) (h : Word16) (y z : Word32) (s : State) :
    (procSetup c h y z s).frameIdx.toNat + z.toNat = (procSetup c h y z s).frameCnt.toNat := by
  simp

/-- The numbered steps of a PROC end in the state the atomic command ends in. -/
theorem advances_acceptProc (c : Cfg) (h : Word16) (y z : Word32) (s : State)
    (hq : s.seq = .idle) :
    advances c (1 + 10 * z.toNat) (acceptProc h y z s) = procBlock c h y z s := by
  have hend : (procBlock c h y z s).seq = .idle := (procBlock_seq c h y z s).trans hq
  calc advances c (1 + 10 * z.toNat) (acceptProc h y z s)
      = advances c (10 * z.toNat) (advance c (acceptProc h y z s)) := advances_add c 1 _ _
    _ = { procBlock c h y z s with seq := .idle } := by
      rw [advance_acceptProc, advances_frames c _ _ (procSetup_framesLeft c h y z s)]; rfl
    _ = procBlock c h y z s := by rw [← hend]

theorem advances_acceptProc_busy (c : Cfg) (h : Word16) (y z : Word32) (s : State) (k : Nat)
    (hk : k < 1 + 10 * z.toNat) : (advances c k (acceptProc h y z s)).seq ≠ .idle := by
  cases k with
  | zero => exact fun h => nomatch h
  | succ k =>
    rw [advances, advance_acceptProc]
    exact advances_frames_busy c _ _ (procSetup_framesLeft c h y z s) k (by omega)

/-- Settles O37: the machine's run is the numbered steps as long as they are busy, and these end in
the block. -/
theorem numberedStepsRefineTheBlock : Obligations.NumberedStepsRefineTheBlock := by
  intro h y z s hq hr
  have hrun : ∀ k ≤ 1 + 10 * z.toNat, Sys2Proof.core.run k (acceptProc h y z s) =
      .next (advances Config.cfg k (acceptProc h y z s)) := fun k hk =>
    core_run_eq_advances k _ hr fun j hj =>
      advances_acceptProc_busy Config.cfg h y z s j (lt_of_lt_of_le hj hk)
  refine ⟨⟨procBlock Config.cfg h y z s, rfl, ?_⟩, fun k hk => ⟨_, hrun k hk.le, ?_, ?_⟩⟩
  · rw [hrun _ le_rfl, advances_acceptProc Config.cfg h y z s hq]
  · exact decide_eq_true (advances_acceptProc_busy Config.cfg h y z s k hk)
  · rw [advances_inputs, acceptProc_inputs]

/-! ### What a PROC leaves of the parameter registers (10_state.md R37) -/

@[simp] theorem procBlock_paramShape (c : Cfg) (h : Word16) (y z : Word32) (s : State) :
    (procBlock c h y z s).paramShape = s.paramShape := by
  rw [procBlock, frames_keep c State.paramShape (frame_paramShape c), procSetup_paramShape]

@[simp] theorem procBlock_paramShift (c : Cfg) (h : Word16) (y z : Word32) (s : State) :
    (procBlock c h y z s).paramShift = s.paramShift := by
  rw [procBlock, frames_keep c State.paramShift (frame_paramShift c), procSetup_paramShift]

@[simp] theorem procBlock_paramTable (c : Cfg) (h : Word16) (y z : Word32) (s : State) :
    (procBlock c h y z s).paramTable = s.paramTable := by
  rw [procBlock, frames_keep c State.paramTable (frame_paramTable c), procSetup_paramTable]

/-! ### The output stream (R41) -/

/-- A numbered step appends to OUT, step 1 one sample and every other step none. -/
theorem advance_out (c : Cfg) (s : State) : ∃ l, (advance c s).out = s.out ++ l := by
  cases hq : s.seq with
  | step1 => exact ⟨[_], by simp only [advance, hq, frameOutput_out]; rfl⟩
  | _ => exact ⟨[], by simp [advance, hq]⟩

theorem procBlock_out (c : Cfg) (h : Word16) (y z : Word32) (s : State) :
    ∃ l, (procBlock c h y z s).out = s.out ++ l := by
  obtain ⟨l, hl, -⟩ := frames_out c (operandFrames z) (procSetup c h y z s)
  exact ⟨l, by rw [procBlock, hl, procSetup_out]⟩

theorem exec_out (i : Instr) (s t : State) (h : exec i s = .next t) :
    ∃ l, t.out = s.out ++ l := by
  cases i with
  | proc p y z => cases h; exact procBlock_out Config.cfg p y z s
  | _ => cases h; exact ⟨[], (List.append_nil _).symm⟩

theorem acceptWord_out (w : CommandWord) (s t : State) (h : acceptWord w s = .next t) :
    ∃ l, t.out = s.out ++ l := by
  obtain ⟨i, -, hi⟩ | ⟨e, -, rfl⟩ := acceptWord_cases w s t h
  · exact exec_out i s t hi
  · exact ⟨[], (List.append_nil _).symm⟩

/-- Settles O55: of the things a step can do only the reset is left out. -/
theorem outputStreamIsAppendOnly : Obligations.OutputStreamIsAppendOnly := by
  intro s t h hr
  obtain ⟨rest, hrest, -⟩ | ⟨w, rest, -, -, hw⟩ | ⟨-, -, rfl⟩ | ⟨-, -, rfl⟩ := step_cases s t h
  · exact absurd (by rw [hrest]; rfl) hr
  · exact (acceptWord_out w _ t hw :)
  · exact ⟨[], (List.append_nil _).symm⟩
  · exact advance_out Config.cfg s

/-! ### Which command writes a register (R20, R37) -/

section
variable {i : Instr} {s t : State}

theorem voicePhase_writers (h : exec i s = .next t)
    (hne : t.driverPhase ≠ s.driverPhase ∨ t.outputPhase ≠ s.outputPhase) :
    i = .start ∨ ∃ p y z, i = .proc p y z := by
  cases i with
  | start => exact .inl rfl
  | proc p y z => exact .inr ⟨p, y, z, rfl⟩
  | _ => cases h; exact hne.elim (absurd rfl) (absurd rfl)

theorem lfoPhase_writer (h : exec i s = .next t) (hne : t.lfoPhase ≠ s.lfoPhase) :
    ∃ p y z, i = .proc p y z := by
  cases i with
  | proc p y z => exact ⟨p, y, z, rfl⟩
  | _ => cases h; exact absurd rfl hne

theorem out_writer (h : exec i s = .next t) (hne : t.out ≠ s.out) : ∃ p y z, i = .proc p y z := by
  cases i with
  | proc p y z => exact ⟨p, y, z, rfl⟩
  | _ => cases h; exact absurd rfl hne

theorem paramShape_writer (h : exec i s = .next t) (hne : t.paramShape ≠ s.paramShape) :
    ∃ z, i = .setshape z := by
  cases i with
  | setshape z => exact ⟨z, rfl⟩
  | proc p y z => cases h; exact absurd (procBlock_paramShape _ p y z s) hne
  | _ => cases h; exact absurd rfl hne

theorem paramShift_writer (h : exec i s = .next t) (hne : t.paramShift ≠ s.paramShift) :
    ∃ z, i = .setshift z := by
  cases i with
  | setshift z => exact ⟨z, rfl⟩
  | proc p y z => cases h; exact absurd (procBlock_paramShift _ p y z s) hne
  | _ => cases h; exact absurd rfl hne

theorem paramTable_writer (h : exec i s = .next t) (hne : t.paramTable ≠ s.paramTable) :
    ∃ z, i = .settable z := by
  cases i with
  | settable z => exact ⟨z, rfl⟩
  | proc p y z => cases h; exact absurd (procBlock_paramTable _ p y z s) hne
  | _ => cases h; exact absurd rfl hne

end

/-- Settles O56: an illegal word writes only `ill`, and a legal one runs its command, of which the
writers above speak. -/
theorem registersHaveOnlyTheirWriters : Obligations.RegistersHaveOnlyTheirWriters := by
  intro s t w rest hq hi h
  rw [step_of_word s w rest hq hi] at h
  obtain ⟨i, hd, he⟩ | ⟨e, -, rfl⟩ := acceptWord_cases w _ t h
  · simp only [hd, Except.ok.injEq]
    exact ⟨(voicePhase_writers he :), (lfoPhase_writer he :), (paramShape_writer he :),
      (paramShift_writer he :), (paramTable_writer he :), (out_writer he :)⟩
  · exact ⟨fun hne => hne.elim (absurd rfl) (absurd rfl), absurd rfl, absurd rfl, absurd rfl,
      absurd rfl, absurd rfl⟩

/-! ### The invariant, one lemma per operation on the state -/

section
variable {c : Cfg} {s : State}

/-- The invariant does not speak of what the host presents. -/
theorem State.Inv.withInputs (hi : s.Inv c) (l : List HostInput) :
    ({ s with inputs := l } : State).Inv c :=
  { hi with }

/-- The sequencer may stand anywhere outside a frame, and inside one while a frame is left. -/
theorem State.Inv.withSeq (hi : s.Inv c) (q : SeqPos)
    (hq : q.inFrame = true → s.frameIdx.toNat < s.frameCnt.toNat) :
    ({ s with seq := q } : State).Inv c :=
  { hi with frameLeft := hq }

/-- The boundary after the setup or after step 10: where frames are left the next one starts. -/
theorem State.Inv.withNextFrame (hi : s.Inv c) :
    ({ s with seq := nextFrame s } : State).Inv c := by
  refine hi.withSeq _ fun hq => lt_of_le_of_ne hi.frameIdx fun he => ?_
  rw [nextFrame_of_eq s he] at hq
  cases hq

theorem raiseIllegalCommand_inv (hi : s.Inv c) : (raiseIllegalCommand s).Inv c :=
  { hi with }

theorem frameOutput_inv (hi : s.Inv c) : (frameOutput c s).Inv c :=
  { hi with
    out := fun v hv => by
      rw [frameOutput_out, List.mem_append, List.mem_singleton] at hv
      obtain hv | rfl := hv
      · exact hi.out v hv
      · exact toReg_outconv_low _ }

theorem frameIncrement_inv (hi : s.Inv c) : (frameIncrement c s).Inv c :=
  { hi with driverIncrement := c.pitchConv_lt _ }

theorem drvadv_inv (hi : s.Inv c) : (drvadv c s).Inv c :=
  { hi with driverPhase := advancePhase_lt c _ _ }

theorem outadv_inv (hi : s.Inv c) (d : Int) : (outadv c d s).Inv c :=
  { hi with outputPhase := advancePhase_lt c _ _ }

theorem lfoadv_inv (hi : s.Inv c) : (lfoadv c s).Inv c :=
  { hi with lfoPhase := advancePhase_lt c _ _ }

/-- MODACC with a frame left, the sequencer standing outside the frame. -/
theorem modacc_inv (hi : s.Inv c) (hlt : s.frameIdx.toNat < s.frameCnt.toNat)
    (hq : s.seq.inFrame = false) : (modacc s).Inv c :=
  { hi with
    frameIdx := by
      rw [modacc_frameIdx, modacc_frameCnt, frameIdx_succ_toNat s hlt]
      exact hlt
    frameLeft := fun h => absurd (h.symm.trans hq) (by decide) }

/-- A routing register holds 0 or ROUTE's value, so it is in range while PARAM_SHAPE is (R29, R30). -/
theorem routeValue_toReg_le (hi : s.Inv c) :
    (toReg (routeValue c s.paramShape.toNat)).toNat ≤ c.routeMin + c.routeSpan := by
  obtain ⟨-, hle, hfit⟩ := routeValue_range c s.paramShape.toNat hi.paramShape
  rwa [toReg_natCast_toNat _ (by omega)]

/-- The setup of a PROC, whose sequencer stands outside any frame. -/
theorem procSetup_inv (hi : s.Inv c) (hq : s.seq.inFrame = false) (h : Word16) (y z : Word32) :
    (procSetup c h y z s).Inv c where
  driverPhase := by rw [procSetup_driverPhase]; exact hi.driverPhase
  outputPhase := by rw [procSetup_outputPhase]; exact hi.outputPhase
  lfoPhase := by rw [procSetup_lfoPhase]; exact hi.lfoPhase
  driverIncrement := by rw [procSetup_driverIncrement]; exact hi.driverIncrement
  lfoIncrement := by
    rw [procSetup_lfoIncrement]; exact (lfoDelta_element c _ (lfoIndex_le _)).2
  waveSel := by rw [procSetup_waveSel]; exact (carrierOf_eq c _).2
  staticOffset := by
    rw [procSetup_staticOffset]
    split
    · exact routeValue_toReg_le hi
    · exact Nat.zero_le _
  depth := by
    rw [procSetup_depth]
    split
    · exact Nat.zero_le _
    · exact routeValue_toReg_le hi
  exclusive := by
    rw [procSetup_staticOffset, procSetup_depth]
    split
    · exact .inr rfl
    · exact .inl rfl
  paramShape := by rw [procSetup_paramShape]; exact hi.paramShape
  paramShift := by rw [procSetup_paramShift]; exact hi.paramShift
  frameIdx := by rw [procSetup_frameIdx]; exact Nat.zero_le _
  frameLeft := fun h => by rw [procSetup_seq, hq] at h; cases h
  out := by rw [procSetup_out]; exact hi.out

/-! ### Every step keeps the invariant -/

/-- One numbered step: its operation on the registers, then the sequencer's next position, which
inside a frame needs only that the frame was already counted as left. -/
theorem advance_inv (hi : s.Inv c) : (advance c s).Inv c := by
  have hleft : ∀ q, s.seq = q → q.inFrame = true → s.frameIdx.toNat < s.frameCnt.toNat :=
    fun _ hq hin => hi.frameLeft (hq ▸ hin)
  cases hq : s.seq with
  | idle => simpa only [advance, hq] using hi
  | setup h y z =>
    simp only [advance, hq]
    exact (procSetup_inv hi (by rw [hq]; rfl) h y z).withNextFrame
  | step1 => simp only [advance, hq]; exact (frameOutput_inv hi).withSeq _ fun _ => hleft _ hq rfl
  | step2 => simp only [advance, hq]; exact (frameIncrement_inv hi).withSeq _ fun _ => hleft _ hq rfl
  | step3 => simp only [advance, hq]; exact (drvadv_inv hi).withSeq _ fun _ => hleft _ hq rfl
  | step4 => simp only [advance, hq]; exact (lfoadv_inv hi).withSeq _ fun _ => hleft _ hq rfl
  | step9 d => simp only [advance, hq]; exact (outadv_inv hi d).withSeq _ fun _ => hleft _ hq rfl
  | step10 =>
    have hacc : (modacc { s with seq := .idle }).Inv c :=
      modacc_inv (hi.withSeq .idle fun h => nomatch h) (hleft _ hq rfl) rfl
    simp only [advance, hq]
    exact hacc.withNextFrame
  | _ => simp only [advance, hq]; exact hi.withSeq _ fun _ => hleft _ hq rfl

theorem advances_inv (hi : s.Inv c) (n : Nat) : (advances c n s).Inv c := by
  induction n generalizing s with
  | zero => exact hi
  | succ n ih => exact ih (advance_inv hi)

/-- A PROC as one transition: the numbered steps it stands for keep the invariant. -/
theorem procBlock_inv (hi : s.Inv c) (hq : s.seq = .idle) (h : Word16) (y z : Word32) :
    (procBlock c h y z s).Inv c := by
  rw [← advances_acceptProc c h y z s hq]
  exact advances_inv (hi.withSeq (.setup h y z) fun hin => nomatch hin) _

/-- A parameter is clipped to at most 1.0 at set time (R34, R35). -/
theorem clipParam_toNat_le (z : Word32) : (clipParam z).toNat ≤ 65536 := by
  have hz := clipParam_toNat z
  obtain ⟨-, hle, -⟩ := clamp_spec z.toInt 0 65536 (by decide)
  omega

/-- Each command on an idle core. -/
theorem exec_inv {i : Instr} {t : State} (hi : s.Inv Config.cfg) (hq : s.seq = .idle)
    (h : exec i s = .next t) : t.Inv Config.cfg := by
  obtain ⟨-, rfl⟩ | ⟨-, rfl⟩ | ⟨z, -, rfl⟩ | ⟨z, -, rfl⟩ | ⟨z, -, rfl⟩ | ⟨p, y, z, -, rfl⟩ :=
    exec_cases i s t h
  · exact { hi with driverPhase := Nat.two_pow_pos _, outputPhase := Nat.two_pow_pos _ }
  · exact hi
  · exact { hi with paramShape := clipParam_toNat_le z }
  · exact { hi with paramShift := clipParam_toNat_le z }
  · exact { hi with }
  · exact procBlock_inv hi hq p y z

theorem acceptWord_inv {w : CommandWord} {t : State} (hi : s.Inv Config.cfg) (hq : s.seq = .idle)
    (h : acceptWord w s = .next t) : t.Inv Config.cfg := by
  obtain ⟨i, -, he⟩ | ⟨e, -, rfl⟩ := acceptWord_cases w s t h
  · exact exec_inv hi hq he
  · exact raiseIllegalCommand_inv hi

end

/-- Settles O52: the invariant holds after each of the things a step can do. -/
theorem everyStepKeepsTheInvariant : Obligations.EveryStepKeepsTheInvariant := by
  intro s t hi h
  obtain ⟨rest, -, rfl⟩ | ⟨w, rest, hq, -, hw⟩ | ⟨-, -, rfl⟩ | ⟨-, -, rfl⟩ := step_cases s t h
  · exact (reset_inv Config.cfg).withInputs rest
  · exact acceptWord_inv (hi.withInputs rest) hq hw
  · exact hi
  · exact advance_inv hi

end Sys2Proof.Machine
end

section
/-! PROOFS. The family 30_encoding.md: the decoder and the encoder, the carriage of a word, the
assembler and the STATUS port. -/

namespace Sys2Proof

/-! ### The rows of the opcode map as opcode and format (R72 to R76) -/

theorem fieldOp_eq_iff (w : CommandWord) (op : BitVec 8) :
    fieldOp w = op ↔ w.toNat / 2 ^ 120 = op.toNat := by
  rw [← BitVec.toNat_inj, fieldOp_toNat]

/-- A word matches a row exactly when it has the row's opcode and the must-be-zero bits of the row's
format are zero. -/
theorem row_covers_iff (w : CommandWord) :
    (rowStart.covers w = true ↔ fieldOp w = 1 ∧ formatN w = true) ∧
    (rowStop.covers w = true ↔ fieldOp w = 2 ∧ formatN w = true) ∧
    (rowSetshape.covers w = true ↔ fieldOp w = 3 ∧ formatV w = true) ∧
    (rowSetshift.covers w = true ↔ fieldOp w = 4 ∧ formatV w = true) ∧
    (rowSettable.covers w = true ↔ fieldOp w = 5 ∧ formatV w = true) ∧
    (rowProc.covers w = true ↔ fieldOp w = 6 ∧ formatP w = true) := by
  simp only [rowStart_covers, rowStop_covers, rowSetshape_covers, rowSetshift_covers,
    rowSettable_covers, rowProc_covers, fieldOp_eq_iff, formatN_iff, formatV_iff, formatP_iff,
    BitVec.ofNat_eq_ofNat, BitVec.toNat_ofNat]
  refine ⟨?_, ?_, ?_, ?_, ?_, ?_⟩ <;> omega

/-- A word that matches a row decodes to the row's command, with the operands in their fields. -/
theorem decode_of_covers (w : CommandWord) :
    (rowStart.covers w = true → decode w = .ok .start) ∧
    (rowStop.covers w = true → decode w = .ok .stop) ∧
    (rowSetshape.covers w = true → decode w = .ok (.setshape (fieldZ w))) ∧
    (rowSetshift.covers w = true → decode w = .ok (.setshift (fieldZ w))) ∧
    (rowSettable.covers w = true → decode w = .ok (.settable (fieldZ w))) ∧
    (rowProc.covers w = true → decode w = .ok (.proc (fieldPitch w) (fieldY w) (fieldZ w))) := by
  have hformat {ok : Bool} {i : Instr} (h : decode w = decodeFormat ok w i) (hok : ok = true) :
      decode w = .ok i := by rw [h, hok, decodeFormat_true]
  obtain ⟨c1, c2, c3, c4, c5, c6⟩ := row_covers_iff w
  obtain ⟨d1, d2, d3, d4, d5, d6⟩ := decode_of_op w
  exact ⟨fun h => hformat (d1 (c1.1 h).1) (c1.1 h).2, fun h => hformat (d2 (c2.1 h).1) (c2.1 h).2,
    fun h => hformat (d3 (c3.1 h).1) (c3.1 h).2, fun h => hformat (d4 (c4.1 h).1) (c4.1 h).2,
    fun h => hformat (d5 (c5.1 h).1) (c5.1 h).2, fun h => hformat (d6 (c6.1 h).1) (c6.1 h).2⟩

theorem row_covers_of_decode {w : CommandWord} {i : Instr} (h : decode w = .ok i) :
    i.row.covers w = true := by
  obtain ⟨c1, c2, c3, c4, c5, c6⟩ := row_covers_iff w
  obtain ⟨hop, hf, rfl⟩ | ⟨hop, hf, rfl⟩ | ⟨hop, hf, rfl⟩ | ⟨hop, hf, rfl⟩ | ⟨hop, hf, rfl⟩ |
    ⟨hop, hf, rfl⟩ := decode_cases w i h
  · exact c1.2 ⟨hop, hf⟩
  · exact c2.2 ⟨hop, hf⟩
  · exact c3.2 ⟨hop, hf⟩
  · exact c4.2 ⟨hop, hf⟩
  · exact c5.2 ⟨hop, hf⟩
  · exact c6.2 ⟨hop, hf⟩

/-- A word that matches a row of the map decodes to a command of that row. -/
theorem exists_decode_of_covers {w : CommandWord} {r : OpcodeRow} (hr : r ∈ opcodeMap)
    (h : r.covers w = true) : ∃ i, decode w = .ok i ∧ i.row = r := by
  obtain ⟨d1, d2, d3, d4, d5, d6⟩ := decode_of_covers w
  simp only [opcodeMap, List.mem_cons, List.not_mem_nil, or_false] at hr
  obtain rfl | rfl | rfl | rfl | rfl | rfl := hr
  · exact ⟨_, d1 h, rfl⟩
  · exact ⟨_, d2 h, rfl⟩
  · exact ⟨_, d3 h, rfl⟩
  · exact ⟨_, d4 h, rfl⟩
  · exact ⟨_, d5 h, rfl⟩
  · exact ⟨_, d6 h, rfl⟩

theorem row_mem_opcodeMap (i : Instr) : i.row ∈ opcodeMap := by
  cases i <;> simp [Instr.row, opcodeMap]

theorem legalWord_of_decode {w : CommandWord} {i : Instr} (h : decode w = .ok i) :
    legalWord w = true :=
  List.any_eq_true.2 ⟨i.row, row_mem_opcodeMap i, row_covers_of_decode h⟩

/-- Settles O11: a word that matches a row decodes to a command of that row, and the decoder answers
at most one command. -/
theorem decodeIsTheOpcodeMap : Obligations.DecodeIsTheOpcodeMap := by
  refine ⟨fun w => ?_, fun w i h => row_covers_of_decode h, fun w r r' hr hr' h h' => ?_⟩
  · obtain ⟨d1, d2, d3, d4, d5, d6⟩ := decode_of_covers w
    refine ⟨d1, d2, d3, d4, d5, d6, fun hlegal => ?_⟩
    cases hd : decode w with
    | ok i => rw [legalWord_of_decode hd] at hlegal; cases hlegal
    | error e => exact ⟨e, rfl⟩
  · obtain ⟨i, hi, rfl⟩ := exists_decode_of_covers hr h
    obtain ⟨i', hi', rfl⟩ := exists_decode_of_covers hr' h'
    cases hi.symm.trans hi'
    rfl

/-! ### Decoding an encoded command (R71 to R75) -/

theorem fieldZ_packWord (op : BitVec 8) (x y z : Word32) : fieldZ (packWord op x y z) = z := by
  have hz := z.isLt
  apply BitVec.eq_of_toNat_eq
  rw [fieldZ_toNat, packWord_toNat]
  omega

theorem fieldY_packWord (op : BitVec 8) (x y z : Word32) : fieldY (packWord op x y z) = y := by
  have hy := y.isLt
  have hz := z.isLt
  apply BitVec.eq_of_toNat_eq
  rw [fieldY_toNat, packWord_toNat]
  omega

theorem fieldPitch_packWord (op : BitVec 8) (hostPitch : Word16) (y z : Word32) :
    fieldPitch (packWord op (0#16 ++ hostPitch) y z) = hostPitch := by
  have hp := hostPitch.isLt
  have hy := y.isLt
  have hz := z.isLt
  apply BitVec.eq_of_toNat_eq
  rw [fieldPitch_toNat, packWord_toNat, zeroExtendedPitch_toNat]
  omega

theorem row_covers_encode (i : Instr) : i.row.covers (encode i) = true := by
  have hrow : Laws.EncodingLiesInItsRow.Statement i := by
    cases i with
    | start => exact Laws.EncodingLiesInItsRow.start
    | stop => exact Laws.EncodingLiesInItsRow.stop
    | setshape z => exact Laws.EncodingLiesInItsRow.setshape z
    | setshift z => exact Laws.EncodingLiesInItsRow.setshift z
    | settable z => exact Laws.EncodingLiesInItsRow.settable z
    | proc p y z => exact Laws.EncodingLiesInItsRow.proc p y z
  obtain ⟨-, hcov, -⟩ := hrow
  exact hcov

/-- An encoded command lies in its own row, and its operand fields hold its operands. -/
theorem decode_encode (i : Instr) : decode (encode i) = .ok i := by
  obtain ⟨d1, d2, d3, d4, d5, d6⟩ := decode_of_covers (encode i)
  have hcov := row_covers_encode i
  cases i with
  | start => exact d1 hcov
  | stop => exact d2 hcov
  | setshape z => rw [d3 hcov, encode, fieldZ_packWord]
  | setshift z => rw [d4 hcov, encode, fieldZ_packWord]
  | settable z => rw [d5 hcov, encode, fieldZ_packWord]
  | proc p y z =>
    rw [d6 hcov, encode, fieldPitch_packWord, fieldY_packWord, fieldZ_packWord]

/-! ### A word as bytes and as four 32-bit words (R85) -/

theorem wordOfBytes_bytesOfWord (w : CommandWord) : wordOfBytes (bytesOfWord w) = some w := by
  have hnat : leNat (bytesOfWord w) = w.toNat := by
    rw [bytesOfWord, leNat_leBytes]
    exact Nat.mod_eq_of_lt w.isLt
  have hlen : (bytesOfWord w).length = 16 := leBytes_length 16 w.toNat
  rw [wordOfBytes, if_pos hlen, hnat, BitVec.ofNat_toNat, BitVec.setWidth_eq]

theorem decodeBytes_bytesOfWord (w : CommandWord) : decodeBytes (bytesOfWord w) = decode w := by
  rw [decodeBytes, wordOfBytes_bytesOfWord]

/-- Byte `k` of a little-endian string holds bits `8 k + 7 .. 8 k`. -/
theorem bytesOfWord_getElem? (w : CommandWord) (k : Nat) (hk : k < 16) :
    (bytesOfWord w)[k]? = some (w.extractLsb' (8 * k) 8) := by
  rw [bytesOfWord, leBytes_getElem? 16 _ k hk]
  congr 1
  apply BitVec.eq_of_toNat_eq
  rw [BitVec.toNat_ofNat, BitVec.extractLsb'_toNat, Nat.shiftRight_eq_div_pow, pow_mul,
    show 256 = 2 ^ 8 by rfl]

theorem fieldOp_append_fieldRsv (w : CommandWord) :
    fieldOp w ++ fieldRsv w = w.extractLsb' 96 32 :=
  BitVec.extractLsb'_append_extractLsb'_eq_extractLsb' rfl

/-- Settles O13: the 16 bytes read back to the word, and the word decodes to its command. -/
theorem decodeOfEncodeIsIdentity : Obligations.DecodeOfEncodeIsIdentity :=
  fun i _ => ⟨decode_encode i, (decodeBytes_bytesOfWord _).trans (decode_encode i)⟩

/-- Settles O15, from what the little-endian bytes of a number hold. -/
theorem wordIsCarriedLittleEndian : Obligations.WordIsCarriedLittleEndian := fun w =>
  ⟨leBytes_length 16 w.toNat, bytesOfWord_getElem? w, wordOfBytes_bytesOfWord w, by
    rw [wordsOfWord, fieldOp_append_fieldRsv]; rfl⟩

/-! ### Encoding a decoded command (R76, R87) -/

theorem formatN_iff_fields (w : CommandWord) :
    formatN w = true ↔ fieldRsv w = 0 ∧ fieldX w = 0 ∧ fieldY w = 0 ∧ fieldZ w = 0 := by
  simp [formatN, and_assoc]

theorem formatV_iff_fields (w : CommandWord) :
    formatV w = true ↔ fieldRsv w = 0 ∧ fieldX w = 0 ∧ fieldY w = 0 := by
  simp [formatV, and_assoc]

theorem formatP_iff_fields (w : CommandWord) :
    formatP w = true ↔ fieldRsv w = 0 ∧ fieldXHigh w = 0 := by
  simp [formatP]

/-- A word whose reserved bits are zero is its own four fields. -/
theorem packWord_fields (w : CommandWord) (h : fieldRsv w = 0) :
    packWord (fieldOp w) (fieldX w) (fieldY w) (fieldZ w) = w := by
  have hr : w.toNat / 2 ^ 96 % 2 ^ 24 = 0 := by rw [← fieldRsv_toNat, h]; rfl
  apply BitVec.eq_of_toNat_eq
  rw [packWord_toNat, fieldOp_toNat, fieldX_toNat, fieldY_toNat, fieldZ_toNat]
  omega

theorem zeroExtended_fieldPitch (w : CommandWord) (h : fieldXHigh w = 0) :
    0#16 ++ fieldPitch w = fieldX w := by
  have hx : w.toNat / 2 ^ 80 % 2 ^ 16 = 0 := by rw [← fieldXHigh_toNat, h]; rfl
  apply BitVec.eq_of_toNat_eq
  rw [zeroExtendedPitch_toNat, fieldPitch_toNat, fieldX_toNat]
  omega

/-- A legal word is its four fields, of which the command holds all that are not zero. -/
theorem encode_of_decode {w : CommandWord} {i : Instr} (h : decode w = .ok i) : encode i = w := by
  obtain ⟨hop, hf, rfl⟩ | ⟨hop, hf, rfl⟩ | ⟨hop, hf, rfl⟩ | ⟨hop, hf, rfl⟩ | ⟨hop, hf, rfl⟩ |
    ⟨hop, hf, rfl⟩ := decode_cases w i h
  case inl | inr.inl =>
    obtain ⟨hr, hx, hy, hz⟩ := (formatN_iff_fields w).1 hf
    simpa [encode, hop, hx, hy, hz] using packWord_fields w hr
  case inr.inr.inr.inr.inr =>
    obtain ⟨hr, hx⟩ := (formatP_iff_fields w).1 hf
    simpa [encode, hop, zeroExtended_fieldPitch w hx] using packWord_fields w hr
  all_goals
    obtain ⟨hr, hx, hy⟩ := (formatV_iff_fields w).1 hf
    simpa [encode, hop, hx, hy] using packWord_fields w hr

/-- Settles O14: what a legal word holds outside its command's operands is fixed by its row. -/
theorem legalWordIsEncodingOfItsCommand : Obligations.LegalWordIsEncodingOfItsCommand :=
  fun _ _ h => encode_of_decode h

end Sys2Proof

namespace Sys2Proof.Machine

/-! ### Illegal words (R77) -/

/-- R77: the opcode is reserved, or a must-be-zero bit of the opcode's format is set. -/
def IllegalFields (w : CommandWord) : Prop :=
  (fieldOp w).toNat = 0 ∨ 7 ≤ (fieldOp w).toNat ∨ fieldRsv w ≠ 0 ∨
    ((fieldOp w).toNat ≤ 5 ∧ (fieldX w ≠ 0 ∨ fieldY w ≠ 0)) ∨
    ((fieldOp w).toNat ≤ 2 ∧ fieldZ w ≠ 0) ∨ ((fieldOp w).toNat = 6 ∧ fieldXHigh w ≠ 0)

/-- A word that decodes has a defined opcode and the must-be-zero bits of its format zero. -/
theorem not_illegalFields_of_decode {w : CommandWord} {i : Instr} (h : decode w = .ok i) :
    ¬ IllegalFields w := by
  obtain ⟨hop, hf, -⟩ | ⟨hop, hf, -⟩ | ⟨hop, hf, -⟩ | ⟨hop, hf, -⟩ | ⟨hop, hf, -⟩ |
    ⟨hop, hf, -⟩ := decode_cases w i h
  all_goals
    simp only [formatN_iff_fields, formatV_iff_fields, formatP_iff_fields] at hf
    simp [IllegalFields, hop, hf]

/-- A word with a defined opcode and the must-be-zero bits of its format zero decodes, whatever its
operands (R78). -/
theorem exists_decode_of_not_illegalFields (w : CommandWord) (h : ¬ IllegalFields w) :
    ∃ i, decode w = .ok i := by
  obtain ⟨c1, c2, c3, c4, c5, c6⟩ := row_covers_iff w
  obtain ⟨d1, d2, d3, d4, d5, d6⟩ := decode_of_covers w
  simp only [IllegalFields, not_or, not_and, ne_eq, not_not, not_le] at h
  obtain ⟨h0, h7, hr, hxy, hz, hx⟩ := h
  have hN (hle : (fieldOp w).toNat ≤ 2) : formatN w = true :=
    (formatN_iff_fields w).2 ⟨hr, (hxy (by omega)).1, (hxy (by omega)).2, hz hle⟩
  have hV (hle : (fieldOp w).toNat ≤ 5) : formatV w = true :=
    (formatV_iff_fields w).2 ⟨hr, hxy hle⟩
  have hP (he : (fieldOp w).toNat = 6) : formatP w = true :=
    (formatP_iff_fields w).2 ⟨hr, hx he⟩
  obtain hop | hop | hop | hop | hop | hop : (fieldOp w).toNat = 1 ∨ (fieldOp w).toNat = 2 ∨
    (fieldOp w).toNat = 3 ∨ (fieldOp w).toNat = 4 ∨ (fieldOp w).toNat = 5 ∨
    (fieldOp w).toNat = 6 := by omega
  · exact ⟨_, d1 (c1.2 ⟨BitVec.eq_of_toNat_eq hop, hN (by omega)⟩)⟩
  · exact ⟨_, d2 (c2.2 ⟨BitVec.eq_of_toNat_eq hop, hN (by omega)⟩)⟩
  · exact ⟨_, d3 (c3.2 ⟨BitVec.eq_of_toNat_eq hop, hV (by omega)⟩)⟩
  · exact ⟨_, d4 (c4.2 ⟨BitVec.eq_of_toNat_eq hop, hV (by omega)⟩)⟩
  · exact ⟨_, d5 (c5.2 ⟨BitVec.eq_of_toNat_eq hop, hV (by omega)⟩)⟩
  · exact ⟨_, d6 (c6.2 ⟨BitVec.eq_of_toNat_eq hop, hP hop⟩)⟩

/-- A word the decoder refuses is taken off the port and sets `ill` (60_exceptions.md R201). -/
theorem raisesIllegalCommand_of_decode {w : CommandWord} {e : DecodeError}
    (h : decode w = .error e) : raisesIllegalCommand w := by
  intro s rest hq hin
  rw [step_of_word s w rest hq hin, acceptWord, h]
  rfl

theorem raisesIllegalCommand_of_illegalFields {w : CommandWord} (h : IllegalFields w) :
    raisesIllegalCommand w := by
  cases hd : decode w with
  | ok i => exact absurd h (not_illegalFields_of_decode hd)
  | error e => exact raisesIllegalCommand_of_decode hd

/-- Settles O12: the illegal fields are exactly those of the words the decoder refuses; all-zero has
opcode 0 and all-ones opcode 255. -/
theorem illegalWordsRaiseIllegalCommand : Obligations.IllegalWordsRaiseIllegalCommand :=
  ⟨fun w => ⟨raisesIllegalCommand_of_illegalFields, exists_decode_of_not_illegalFields w⟩,
    raisesIllegalCommand_of_illegalFields (.inl (by decide)),
    raisesIllegalCommand_of_illegalFields (.inr (.inl (by decide)))⟩

/-! ### The assembler (R86) -/

/-- The assembler emits a word exactly for a line whose operands are in their accepted ranges. -/
theorem exists_assemble_iff (l : AsmLine) : (∃ w, assemble l = some w) ↔ l.wellFormed = true := by
  rw [assemble]
  split <;> simp_all

theorem assemble_eq_asmWord {l : AsmLine} {w : CommandWord} (h : assemble l = some w) :
    asmWord l = w := by
  rw [assemble] at h
  split at h
  · exact Option.some.inj h
  · cases h

/-- Every line but the directive `.word` stands for the encoding of a command. -/
theorem exists_asmWord_eq_encode {l : AsmLine} (h : ∀ v, l ≠ .word v) :
    ∃ i, asmWord l = encode i := by
  cases l with
  | word v => exact absurd rfl (h v)
  | _ => rw [asmWord]; exact ⟨_, rfl⟩

theorem inImm32_iff (v : Int) : inImm32 v = true ↔ -2 ^ 31 ≤ v ∧ v ≤ 2 ^ 32 - 1 := by
  simp [inImm32]

theorem inPitch16_iff (v : Int) : inPitch16 v = true ↔ 0 ≤ v ∧ v ≤ 65535 := by
  simp [inPitch16]

theorem inFrames32_iff (v : Int) : inFrames32 v = true ↔ 0 ≤ v ∧ v ≤ 2 ^ 32 - 1 := by
  simp [inFrames32]

theorem wellFormed_proc_iff (a b d : Int) : (AsmLine.proc a b d).wellFormed = true ↔
    (0 ≤ a ∧ a ≤ 65535) ∧ (-2 ^ 31 ≤ b ∧ b ≤ 2 ^ 32 - 1) ∧ (0 ≤ d ∧ d ≤ 2 ^ 32 - 1) := by
  simp only [AsmLine.wellFormed, Bool.and_eq_true, inPitch16_iff, inImm32_iff, inFrames32_iff,
    and_assoc]

/-- Settles O16: an emitted word is an encoding, which is legal, and the ranges are those of the
line's operands. -/
theorem assemblerEmitsOnlyLegalWords : Obligations.AssemblerEmitsOnlyLegalWords := by
  refine ⟨fun l w hl h => ?_, fun imm => ?_, fun imm => ?_, fun imm => ?_, fun a b d => ?_⟩
  · obtain ⟨i, hi⟩ := exists_asmWord_eq_encode hl
    rw [← assemble_eq_asmWord h, hi]
    exact legalWord_of_decode (decode_encode i)
  · exact (exists_assemble_iff _).trans (inImm32_iff imm)
  · exact (exists_assemble_iff _).trans (inImm32_iff imm)
  · exact (exists_assemble_iff _).trans (inImm32_iff imm)
  · exact (exists_assemble_iff _).trans (wellFormed_proc_iff a b d)

/-! ### The STATUS port (R82) -/

theorem busy_iff (s : State) : busy s = true ↔ s.seq ≠ .idle := decide_eq_true_iff

theorem status_bit_zero (s : State) : (status s).getLsbD 0 = s.ill := by
  rw [status, BitVec.getLsbD_append]; simp

theorem status_bit_one (s : State) : (status s).getLsbD 1 = busy s := by
  rw [status, BitVec.getLsbD_append]; simp

/-- Settles O9: the port is the two bits side by side. -/
theorem statusPortShowsIllAndBusy : Obligations.StatusPortShowsIllAndBusy := fun s =>
  ⟨status_bit_zero s, by rw [status_bit_one, busy_iff]⟩

end Sys2Proof.Machine
end

section
/-! PROOFS. The family 41_phase_accumulator.md: the phase advance, sequences of advances, and what a
block of frames makes of the two free-running phases. -/

namespace Sys2Proof.Machine

/-! ### The phase advance (R110) -/

/-- A value is its wrapped value plus a multiple of `2^B`. -/
theorem exists_wrapB_eq_add_mul (c : Cfg) (v : Int) : ∃ k : Int, wrapB c v = v + k * 2 ^ c.B :=
  ⟨-(v / 2 ^ c.B), by rw [wrapB, Int.emod_def]; ring⟩

/-- The only value in range that differs by a multiple of `2^B` is the wrapped one. -/
theorem wrapB_add_mul_of_range (c : Cfg) (r k : Int) (h0 : 0 ≤ r) (h1 : r < 2 ^ c.B) :
    wrapB c (r + k * 2 ^ c.B) = r := by
  rw [wrapB, Int.add_mul_emod_self_right, Int.emod_eq_of_lt h0 h1]

theorem phadv_zero (c : Cfg) (p : Int) (h0 : 0 ≤ p) (h1 : p < 2 ^ c.B) : phadv c p 0 = p := by
  rw [phadv, add_zero, wrapB_of_range c p h0 h1]

/-- The exact wrap: no carry is kept. -/
theorem phadv_eq_zero_of_add_eq (c : Cfg) (p d : Int) (h : p + d = 2 ^ c.B) : phadv c p d = 0 := by
  have hwrap := wrapB_add_mul_of_range c 0 1 le_rfl (two_pow_B_pos c)
  rwa [zero_add, one_mul, ← h] at hwrap

/-- A negative increment wraps downward. -/
theorem phadv_zero_neg_one (c : Cfg) : phadv c 0 (-1) = 2 ^ c.B - 1 := by
  have hpos := two_pow_B_pos c
  have hwrap := wrapB_add_mul_of_range c (2 ^ c.B - 1) (-1) (by omega) (by omega)
  rwa [show (2 ^ c.B - 1 + -1 * 2 ^ c.B : Int) = 0 + -1 by ring] at hwrap

/-- Settles O38, from the range of the advance, its congruence and its corner cases. -/
theorem phaseAdvanceWraps : Obligations.PhaseAdvanceWraps := by
  intro c p d h0 h1
  obtain ⟨hnonneg, hlt⟩ := phadv_range c p d
  exact ⟨hnonneg, hlt, exists_wrapB_eq_add_mul c (p + d), phadv_zero c p h0 h1,
    phadv_eq_zero_of_add_eq c p d, phadv_zero_neg_one c⟩

/-! ### A sequence of advances (R114) -/

/-- The next advance may start from the wrapped phase or from the sum not yet wrapped. -/
theorem foldl_phadv (c : Cfg) (ds : List Int) (p : Int) (h0 : 0 ≤ p) (h1 : p < 2 ^ c.B) :
    ds.foldl (phadv c) p = wrapB c (p + ds.sum) := by
  induction ds generalizing p with
  | nil => rw [List.foldl_nil, List.sum_nil, add_zero, wrapB_of_range c p h0 h1]
  | cons d ds ih =>
    obtain ⟨hnonneg, hlt⟩ := phadv_range c p d
    calc (d :: ds).foldl (phadv c) p
        = wrapB c (wrapB c (p + d) + ds.sum) := ih (phadv c p d) hnonneg hlt
      _ = wrapB c (p + (d :: ds).sum) := by rw [wrapB_wrapB_add, List.sum_cons, add_assoc]

/-- Settles O39: the phase after all advances is a wrapped sum, which is in range. -/
theorem phaseAdvancesAccumulate : Obligations.PhaseAdvancesAccumulate := by
  intro c p ds h0 h1
  rw [foldl_phadv c ds p h0 h1]
  exact ⟨rfl, wrapB_nonneg c _, wrapB_lt c _⟩

/-! ### The free-running phases over a block (R111, R113, R162) -/

/-- A phase register that every frame advances by an increment every frame keeps. -/
theorem frames_phase_toNat (c : Cfg) (phase : State → Word32) (inc : State → Nat)
    (hphase : ∀ s, phase (frame c s) = advancePhase c (phase s) (inc s))
    (hinc : ∀ s, inc (frame c s) = inc s) (n : Nat) (s : State) (hr : inPhaseRange c (phase s)) :
    (phase (frames c n s)).toNat = ((phase s).toNat + n * inc s) % 2 ^ c.B := by
  induction n generalizing s with
  | zero => rw [frames, zero_mul, add_zero, Nat.mod_eq_of_lt hr]
  | succ n ih =>
    have hr' : inPhaseRange c (phase (frame c s)) := by
      rw [hphase]; exact advancePhase_lt c _ _
    calc (phase (frames c (n + 1) s)).toNat
        = ((phase (frame c s)).toNat + n * inc (frame c s)) % 2 ^ c.B := ih (frame c s) hr'
      _ = (((phase s).toNat + inc s) % 2 ^ c.B + n * inc s) % 2 ^ c.B := by
        rw [hphase, hinc, advancePhase_nat]
      _ = ((phase s).toNat + (n + 1) * inc s) % 2 ^ c.B := by
        rw [Nat.mod_add_mod]; congr 1; ring

/-- The frames leave the pitch, so the last of them writes the increment of the first (R162). -/
theorem frames_driverIncrement (c : Cfg) (n : Nat) (s : State) (hn : n ≠ 0) :
    (frames c n s).driverIncrement = c.pitchConv s.pitch := by
  obtain ⟨m, rfl⟩ := Nat.exists_eq_succ_of_ne_zero hn
  calc (frames c (m + 1) s).driverIncrement
      = (frame c (frames c m s)).driverIncrement := by rw [frames_add]; rfl
    _ = c.pitchConv s.pitch := by
      rw [frame_driverIncrement, frames_keep c State.pitch (frame_pitch c)]

section
variable (c : Cfg) (h : Word16) (y z : Word32) (s : State)

theorem procBlock_pitch : (procBlock c h y z s).pitch = (procSetup c h y z s).pitch :=
  frames_keep c State.pitch (frame_pitch c) _ _

theorem procBlock_lfoIncrement :
    (procBlock c h y z s).lfoIncrement = (procSetup c h y z s).lfoIncrement :=
  frames_keep c State.lfoIncrement (frame_lfoIncrement c) _ _

theorem procBlock_driverPhase_toNat (hr : inPhaseRange c s.driverPhase) :
    (procBlock c h y z s).driverPhase.toNat =
      (s.driverPhase.toNat + z.toNat * (c.pitchConv (procBlock c h y z s).pitch).toNat) %
        2 ^ c.B := by
  have hframes := frames_phase_toNat c State.driverPhase (fun s => (c.pitchConv s.pitch).toNat)
    (frame_driverPhase c) (fun s => by rw [frame_pitch]) z.toNat (procSetup c h y z s)
    (by rwa [procSetup_driverPhase])
  rwa [procSetup_driverPhase, ← procBlock_pitch] at hframes

theorem procBlock_lfoPhase_toNat (hr : inPhaseRange c s.lfoPhase) :
    (procBlock c h y z s).lfoPhase.toNat =
      (s.lfoPhase.toNat + z.toNat * (procBlock c h y z s).lfoIncrement.toNat) % 2 ^ c.B := by
  have hframes := frames_phase_toNat c State.lfoPhase (fun s => s.lfoIncrement.toNat)
    (frame_lfoPhase c) (fun s => by rw [frame_lfoIncrement]) z.toNat (procSetup c h y z s)
    (by rwa [procSetup_lfoPhase])
  rwa [procSetup_lfoPhase, ← procBlock_lfoIncrement] at hframes

theorem procBlock_driverIncrement (hz : z ≠ 0) :
    (procBlock c h y z s).driverIncrement = c.pitchConv (procBlock c h y z s).pitch := by
  rw [procBlock_pitch]
  exact frames_driverIncrement c z.toNat _ fun h0 => hz (BitVec.eq_of_toNat_eq h0)

end

/-- Settles O31: the setup leaves both phases, and the frames leave the pitch and the LFO increment,
so every frame advances each phase by the same increment. -/
theorem procAdvancesTheFreePhasesLinearly : Obligations.ProcAdvancesTheFreePhasesLinearly :=
  fun h y z s hdriver hlfo => ⟨procBlock Config.cfg h y z s, rfl,
    procBlock_driverPhase_toNat Config.cfg h y z s hdriver,
    procBlock_lfoPhase_toNat Config.cfg h y z s hlfo,
    procBlock_driverIncrement Config.cfg h y z s⟩

end Sys2Proof.Machine
end

section
/-! PROOFS. The family 42_wavetable_interpolator.md: the output conversion, the interpolated read, the
carrier's selection, and the first sample of a block. -/

namespace Sys2Proof.Machine

/-! ### The output conversion (R122) -/

theorem outconv_eq (s : Int) :
    outconv s = (if s < -4096 then -4096 else if 4095 < s then 4095 else s) * 524288 := rfl

/-- Settles O41: a clamped sample has 13 bits and the scale puts 19 below them, which fills 32. -/
theorem outputConversionClipsAndScales : Obligations.OutputConversionClipsAndScales := by
  intro s _ _
  obtain ⟨hlo, hhi, -⟩ := outconv_range s
  exact ⟨outconv_eq s, toReg_outconv_toInt s, toReg_outconv_low s, hlo, hhi⟩

/-! ### The interpolated read (R120, R121, 20_memory.md R52) -/

theorem waveElement_of_getElem? (c : Cfg) (n i : Nat) (e : Word16)
    (h : c.wave[n * 2 ^ c.T + i]? = some e) : waveElement c n i = e.toInt :=
  readWave_of_element c _ e h

theorem interpolate_eq (s0 s1 : Int) (f : Nat) :
    interpolate s0 s1 f = s0 + (s1 - s0) * f / 256 := rfl

/-- A phase in range reads two elements of the table, and nothing outside it. -/
theorem exists_wtlook_elements (c : Cfg) (n p : Nat) (hn : n < c.N) (hp : p < 2 ^ c.B) :
    ∃ s0 s1, c.wave[n * 2 ^ c.T + waveIndex c p]? = some s0 ∧
      c.wave[n * 2 ^ c.T + waveSuccessor c (waveIndex c p)]? = some s1 ∧
      wtlook c n p = interpolate s0.toInt s1.toInt (waveFraction c p) := by
  obtain ⟨s0, h0⟩ := wave_element_exists c n _ hn (waveIndex_lt c p hp)
  obtain ⟨s1, h1⟩ := wave_element_exists c n _ hn (waveSuccessor_lt c (waveIndex c p))
  refine ⟨s0, s1, h0, h1, ?_⟩
  rw [wtlook, waveElement_of_getElem? c n _ s0 h0, waveElement_of_getElem? c n _ s1 h1]

/-- Settles O40: the read is the interpolation of two neighbouring elements, whose bounds and value
at fraction 0 are those of interpolation. -/
theorem wavetableReadInterpolates : Obligations.WavetableReadInterpolates := by
  intro c n p hn hp
  have hi := waveIndex_lt c p hp
  obtain ⟨s0, s1, h0, h1, hread⟩ := exists_wtlook_elements c n p hn hp
  obtain ⟨hlo, hhi⟩ := interpolate_between s0.toInt s1.toInt _ (waveFraction_lt c p)
  rw [waveSuccessor_eq c _ hi] at h1
  rw [← waveIndex_eq, ← waveFraction_eq, hread]
  refine ⟨hi, s0, s1, h0, h1, interpolate_eq _ _ _, hlo, hhi, fun hf => ?_⟩
  rw [hf, interpolate_zero]

/-! ### The carrier's selection (R123) -/

theorem procBlock_waveSel (c : Cfg) (h : Word16) (y z : Word32) (s : State) :
    (procBlock c h y z s).waveSel = carrierOf c s.paramTable.toInt := by
  rw [procBlock, frames_keep c State.waveSel (frame_waveSel c), procSetup_waveSel]

/-- The selected carrier is a table of the configuration (10_state.md R24). -/
theorem carrierOf_lt (c : Cfg) (t : Int) : carrierOf c t < c.N := by
  have hle := (carrierOf_eq c t).2
  have hN := c.two_le_N
  omega

/-- Settles O25: the setup selects the carrier from the stored index, and no frame selects again. -/
theorem procSelectsTheClampedCarrier : Obligations.ProcSelectsTheClampedCarrier := by
  intro h y z s
  refine ⟨procBlock Config.cfg h y z s, rfl, ?_, procBlock_paramTable _ h y z s⟩
  rw [procBlock_waveSel]
  exact (carrierOf_eq Config.cfg s.paramTable.toInt).1

/-! ### The first sample of a block (R125) -/

/-- The first frame's sample is read at the output phase the block starts with (R161). -/
theorem frames_out_first (c : Cfg) (n : Nat) (s : State) (hn : n ≠ 0) :
    ∃ l, (frames c n s).out =
      s.out ++ toReg (outconv (wtlook c s.waveSel s.outputPhase.toNat)) :: l := by
  obtain ⟨m, rfl⟩ := Nat.exists_eq_succ_of_ne_zero hn
  obtain ⟨l, hl, -⟩ := frames_out c m (frame c s)
  exact ⟨l, by rw [frames_succ, hl, frame_out, List.append_assoc, List.singleton_append]⟩

theorem procBlock_out_first (c : Cfg) (h : Word16) (y z : Word32) (s : State) (hz : z ≠ 0) :
    ∃ l, (procBlock c h y z s).out = s.out ++
      toReg (outconv (wtlook c (procBlock c h y z s).waveSel s.outputPhase.toNat)) :: l := by
  have hfirst := frames_out_first c z.toNat (procSetup c h y z s)
    fun h0 => hz (BitVec.eq_of_toNat_eq h0)
  rwa [procSetup_out, procSetup_outputPhase, procSetup_waveSel, ← procBlock_waveSel c h y z s]
    at hfirst

/-- Where the output phase starts at 0, the first sample is element 0 of the block's carrier. -/
theorem procBlock_out_first_of_phase_zero (c : Cfg) (h : Word16) (y z : Word32) (s : State)
    (hz : z ≠ 0) (hphase : s.outputPhase.toNat = 0) :
    ∃ e l, c.wave[(procBlock c h y z s).waveSel * 2 ^ c.T]? = some e ∧
      (procBlock c h y z s).out = s.out ++ toReg (outconv e.toInt) :: l := by
  have hsel : (procBlock c h y z s).waveSel < c.N := by
    rw [procBlock_waveSel]; exact carrierOf_lt c _
  obtain ⟨e, he⟩ := wave_element_exists c _ 0 hsel (Nat.two_pow_pos _)
  obtain ⟨l, hl⟩ := procBlock_out_first c h y z s hz
  rw [hphase, wtlook_zero, waveElement_of_getElem? c _ 0 e he] at hl
  exact ⟨e, l, he, hl⟩

/-- Settles O34: START puts the output phase to 0 and leaves OUT as it was. -/
theorem firstSampleAfterStartIsElementZero : Obligations.FirstSampleAfterStartIsElementZero := by
  intro h y z s hz
  obtain ⟨e, l, he, hl⟩ := procBlock_out_first_of_phase_zero Config.cfg h y z
    { s with driverPhase := 0, outputPhase := 0 } hz rfl
  exact ⟨_, _, e, l, rfl, rfl, he, hl⟩

end Sys2Proof.Machine
end

section
/-! PROOFS. The family 43_lfo_subsystem.md: the rate mapping, the triangle, and the LFO output. -/

namespace Sys2Proof.Machine

/-! ### The rate mapping (R130) -/

/-- Every value of the register range is mapped with no use of the clamp. -/
theorem lfoIndex_of_le (v : Nat) (hv : v ≤ 65536) : lfoIndex v = (v * 47 + 32768) / 65536 := by
  rw [lfoIndex_eq]
  omega

/-- The index reaches `k` where the scaled value reaches `k` less one half. -/
theorem le_lfoIndex_iff (k v : Nat) (hk : k ≤ 47) :
    k ≤ lfoIndex v ↔ k * 65536 ≤ v * 47 + 32768 := by
  rw [lfoIndex_eq, Nat.le_min, Nat.le_div_iff_mul_le (by decide), and_iff_left hk]

theorem lfoIndex_mono (v v' : Nat) (h : v ≤ v') : lfoIndex v ≤ lfoIndex v' := by
  have hv := (le_lfoIndex_iff (lfoIndex v) v (lfoIndex_le v)).1 le_rfl
  exact (le_lfoIndex_iff (lfoIndex v) v' (lfoIndex_le v)).2 (by omega)

/-- Settles O42: each threshold is the least value whose index reaches 1, 2 or 47. -/
theorem lfoIndexRoundsToNearest : Obligations.LfoIndexRoundsToNearest := by
  refine ⟨fun v hv => ?_, fun v v' h _ => lfoIndex_mono v v' h⟩
  have hone := le_lfoIndex_iff 1 v (by decide)
  have htwo := le_lfoIndex_iff 2 v (by decide)
  have htop := le_lfoIndex_iff 47 v le_rfl
  have hle := lfoIndex_le v
  exact ⟨lfoIndex_of_le v hv, hle, by omega, by omega, by omega⟩

/-- The setup looks the increment up, and no frame changes it. -/
theorem procBlock_lfoIncrement_eq (c : Cfg) (h : Word16) (y z : Word32) (s : State) :
    (procBlock c h y z s).lfoIncrement = readLfoDelta c (lfoIndex s.paramShift.toNat) := by
  rw [procBlock_lfoIncrement, procSetup_lfoIncrement]

/-- Settles O26: the index never exceeds 47, so the element looked up is in the table. -/
theorem procLooksUpTheLfoRate : Obligations.ProcLooksUpTheLfoRate := by
  intro h y z s
  refine ⟨procBlock Config.cfg h y z s, rfl, ?_⟩
  rw [procBlock_lfoIncrement_eq, ← lfoIndex_eq]
  exact (lfoDelta_element Config.cfg _ (lfoIndex_le _)).1

/-! ### The triangle (R132) -/

/-- The second half is the first one mirrored at 0. -/
theorem trigen_half_add (c : Cfg) (p : Nat) (hp : p < 2 ^ (c.B - 1)) :
    trigen c (2 ^ (c.B - 1) + p) = -trigen c p := by
  rw [trigen_rise c _ (Nat.le_add_right _ _), trigen_fall c p hp, Nat.add_sub_cancel_left]
  ring

/-- In the first half the `k`-th output step has the value `4096 - k` on all its phases. -/
theorem trigen_of_output_step (c : Cfg) (k r : Nat) (hk : k < 8192) (hr : r < 2 ^ (c.B - 14)) :
    trigen c (2 ^ (c.B - 14) * k + r) = 4096 - k := by
  obtain ⟨hhalf, -, -, hpos⟩ := half_cycle c
  have hlt : 2 ^ (c.B - 14) * k + r < 2 ^ (c.B - 1) := by
    calc 2 ^ (c.B - 14) * k + r < 2 ^ (c.B - 14) * (k + 1) := by rw [mul_add_one]; omega
      _ ≤ 2 ^ (c.B - 14) * 8192 := Nat.mul_le_mul_left _ hk
      _ = 2 ^ (c.B - 1) := by rw [hhalf, mul_comm]
  rw [trigen_fall c _ hlt, Nat.mul_add_div hpos, Nat.div_eq_of_lt hr, add_zero]

theorem trigen_zero (c : Cfg) : trigen c 0 = 4096 :=
  trigen_of_output_step c 0 0 (by decide) (Nat.two_pow_pos _)

theorem trigen_quarter (c : Cfg) : trigen c (2 ^ (c.B - 2)) = 0 := by
  obtain ⟨-, -, hquarter, hpos⟩ := half_cycle c
  have hstep := trigen_of_output_step c 4096 0 (by decide) hpos
  rw [hquarter, mul_comm, ← add_zero (2 ^ (c.B - 14) * 4096), hstep]
  norm_num

/-- The last phase of the first half is the last of output step 8191. -/
theorem trigen_half_sub_one (c : Cfg) : trigen c (2 ^ (c.B - 1) - 1) = -4095 := by
  obtain ⟨hhalf, -, -, hpos⟩ := half_cycle c
  rw [show 2 ^ (c.B - 1) - 1 = 2 ^ (c.B - 14) * 8191 + (2 ^ (c.B - 14) - 1) by omega]
  exact trigen_of_output_step c 8191 _ (by decide) (Nat.sub_lt hpos one_pos)

theorem trigen_half (c : Cfg) : trigen c (2 ^ (c.B - 1)) = -4096 := by
  rw [← trigen_zero c]
  exact trigen_half_add c 0 (Nat.two_pow_pos _)

theorem trigen_three_quarters (c : Cfg) : trigen c (3 * 2 ^ (c.B - 2)) = 0 := by
  obtain ⟨hhalf, -, hquarter, hpos⟩ := half_cycle c
  rw [show 3 * 2 ^ (c.B - 2) = 2 ^ (c.B - 1) + 2 ^ (c.B - 2) by omega,
    trigen_half_add c _ (by omega), trigen_quarter, neg_zero]

theorem trigen_cycle_sub_one (c : Cfg) : trigen c (2 ^ c.B - 1) = 4095 := by
  obtain ⟨hhalf, hcycle, -, hpos⟩ := half_cycle c
  rw [show 2 ^ c.B - 1 = 2 ^ (c.B - 1) + (2 ^ (c.B - 1) - 1) by omega,
    trigen_half_add c _ (by omega), trigen_half_sub_one, neg_neg]

/-- Inside the first half the next phase is in the same output step or in the next one. -/
theorem trigen_succ_fall (c : Cfg) (p : Nat) (hp : p + 1 < 2 ^ (c.B - 1)) :
    |trigen c (p + 1) - trigen c p| ≤ 1 := by
  rw [trigen_fall c _ hp, trigen_fall c p (by omega), Nat.succ_div, abs_le]
  split <;> push_cast <;> omega

/-- Neighbouring phases differ by at most one output step, also across the half point and the
wrap. -/
theorem trigen_succ_mod (c : Cfg) (p : Nat) (hp : p < 2 ^ c.B) :
    |trigen c ((p + 1) % 2 ^ c.B) - trigen c p| ≤ 1 := by
  obtain ⟨-, hcycle, -, -⟩ := half_cycle c
  rcases lt_or_ge p (2 ^ (c.B - 1)) with hfall | hrise
  · rw [Nat.mod_eq_of_lt (by omega)]
    rcases lt_or_ge (p + 1) (2 ^ (c.B - 1)) with hlt | hhalf
    · exact trigen_succ_fall c p hlt
    · rw [show p = 2 ^ (c.B - 1) - 1 by omega, Nat.sub_add_cancel (Nat.two_pow_pos _),
        trigen_half, trigen_half_sub_one]
      decide
  · obtain ⟨q, rfl⟩ := Nat.exists_eq_add_of_le hrise
    rcases lt_or_ge (2 ^ (c.B - 1) + q + 1) (2 ^ c.B) with hlt | hwrap
    · rw [Nat.mod_eq_of_lt hlt, add_assoc, trigen_half_add c _ (by omega),
        trigen_half_add c q (by omega), neg_sub_neg, abs_sub_comm]
      exact trigen_succ_fall c q (by omega)
    · rw [show 2 ^ (c.B - 1) + q + 1 = 2 ^ c.B by omega, Nat.mod_self,
        show 2 ^ (c.B - 1) + q = 2 ^ c.B - 1 by omega, trigen_zero, trigen_cycle_sub_one]
      decide

/-- Settles O44, from the two halves, the range, the values at the corners and the step between
neighbours. -/
theorem triangleFallsThenRises : Obligations.TriangleFallsThenRises := fun c =>
  ⟨trigen_fall c, fun p hp _ => trigen_rise c p hp,
    fun p hp => ⟨(trigen_range c p hp).1, (trigen_range c p hp).2, trigen_succ_mod c p hp⟩,
    trigen_zero c, trigen_half_sub_one c, trigen_half c, trigen_cycle_sub_one c,
    trigen_quarter c, trigen_three_quarters c⟩

/-! ### The LFO output (R133) -/

theorem lfoScale_eq (w depth : Int) : lfoScale w depth = w * depth / 4096 := rfl

theorem lfoScale_zero (w : Int) : lfoScale w 0 = 0 := by
  rw [lfoScale_eq, mul_zero, Int.zero_ediv]

theorem lfoScale_top (depth : Int) : lfoScale 4096 depth = depth :=
  Int.mul_ediv_cancel_left depth (by decide)

theorem lfoScale_bottom (depth : Int) : lfoScale (-4096) depth = -depth := by
  rw [lfoScale_eq, neg_mul_comm, Int.mul_ediv_cancel_left _ (by decide)]

/-- A larger triangle value gives no smaller output. -/
theorem lfoScale_mono (w w' depth : Int) (hw : w ≤ w') (hd : 0 ≤ depth) :
    lfoScale w depth ≤ lfoScale w' depth :=
  sra_mono _ _ 12 (mul_le_mul_of_nonneg_right hw hd)

/-- Between the outputs at the two ends of the triangle, which are the depth and its negative. -/
theorem abs_lfoScale_le (w depth : Int) (hlo : -4096 ≤ w) (hhi : w ≤ 4096) (hd : 0 ≤ depth) :
    |lfoScale w depth| ≤ depth := by
  have hbottom := lfoScale_mono (-4096) w depth hlo hd
  have htop := lfoScale_mono w 4096 depth hhi hd
  rw [lfoScale_bottom] at hbottom
  rw [lfoScale_top] at htop
  exact abs_le.2 ⟨hbottom, htop⟩

/-- Settles O45: the output is the scaled triangle, whose range is that of R132. -/
theorem lfoOutputIsBoundedByDepth : Obligations.LfoOutputIsBoundedByDepth := by
  intro c s hphase hdepth
  obtain ⟨hlo, hhi⟩ := trigen_range c _ hphase
  refine ⟨lfoScale_eq _ _, abs_lfoScale_le _ _ hlo hhi hdepth, fun h0 => ?_, fun htop => ?_,
    fun hbottom => ?_⟩
  · rw [lfoout, h0]
    exact lfoScale_zero _
  · rw [lfoout, htop, lfoScale_top]
  · rw [lfoout, hbottom, lfoScale_bottom]

end Sys2Proof.Machine
end

section
/-! PROOFS. The family 44_soft_clip_limiter.md: its value, symmetry, order and bound. -/

namespace Sys2Proof.Machine

/-! ### The magnitude and the sign (R140, 20_memory.md R53) -/

theorem softclip_eq (c : Cfg) (x : Int) :
    softclip c x = if x < 0 then -clipMagnitude c x.natAbs else clipMagnitude c x.natAbs := rfl

/-- A magnitude inside the covered range reads two neighbouring elements, and nothing outside the
table. -/
theorem exists_clipMagnitude_elements (c : Cfg) (mag : Nat) (h : mag >>> c.S < c.K - 1) :
    ∃ a b, c.clip[mag >>> c.S]? = some a ∧ c.clip[mag >>> c.S + 1]? = some b ∧
      clipMagnitude c mag =
        interpolate a.toInt b.toInt (lowBits (mag >>> (c.S - 8)) 8) := by
  have hK := c.two_le_K
  obtain ⟨a, ha⟩ := clip_element_exists c (mag >>> c.S) (by omega)
  obtain ⟨b, hb⟩ := clip_element_exists c (mag >>> c.S + 1) (by omega)
  refine ⟨a, b, ha, hb, ?_⟩
  rw [clipMagnitude, if_neg (by omega), readClip_of_element c _ a ha, readClip_of_element c _ b hb]

/-- The table's last element exists, and is what a read at the top gives. -/
theorem exists_clip_top (c : Cfg) :
    ∃ top, c.clip[c.K - 1]? = some top ∧ readClip c (c.K - 1) = top.toInt := by
  have hK := c.two_le_K
  obtain ⟨top, htop⟩ := clip_element_exists c (c.K - 1) (by omega)
  exact ⟨top, htop, readClip_of_element c _ top htop⟩

/-- Settles O46: the index and the fraction are the quotient and the remainder that the shift and
the mask compute, and the two cases on the index are those of the magnitude. -/
theorem softClipInterpolatesItsTable : Obligations.SoftClipInterpolatesItsTable := by
  intro c x _ _
  refine ⟨clipMagnitude c x.natAbs, softclip_eq c x, fun htop => ?_, fun hseg => ?_⟩
  · obtain ⟨top, he, hread⟩ := exists_clip_top c
    rw [← Nat.shiftRight_eq_div_pow] at htop
    exact ⟨top, he, by rw [clipMagnitude_top c _ htop, hread]⟩
  · rw [← Nat.shiftRight_eq_div_pow] at hseg ⊢
    obtain ⟨a, b, ha, hb, hval⟩ := exists_clipMagnitude_elements c _ hseg
    refine ⟨a, b, ha, hb, ?_⟩
    rw [hval, interpolate_eq, lowBits_eq_mod, Nat.shiftRight_eq_div_pow]
    norm_cast

/-! ### Order of the magnitude (R142 (c)) -/

theorem shiftRight_mono (m n k : Nat) (h : m ≤ n) : m >>> k ≤ n >>> k := by
  rw [Nat.shiftRight_eq_div_pow, Nat.shiftRight_eq_div_pow]
  exact Nat.div_le_div_right h

/-- The index and the fraction are one number: the magnitude in units of 1/256 of a segment. -/
theorem clip_index_fraction (c : Cfg) (mag : Nat) :
    mag >>> (c.S - 8) = 256 * (mag >>> c.S) + lowBits (mag >>> (c.S - 8)) 8 := by
  have hS : c.S = c.S - 8 + 8 := (Nat.sub_add_cancel c.eight_le_S).symm
  have hindex : mag >>> c.S = mag >>> (c.S - 8) / 256 := by
    conv_lhs => rw [hS, Nat.shiftRight_add, Nat.shiftRight_eq_div_pow _ 8]
  rw [hindex, lowBits_eq_mod]
  exact (Nat.div_add_mod _ _).symm

/-- Within one segment the fraction decides. -/
theorem clipMagnitude_mono_of_same_index (c : Cfg) (m n : Nat) (h : m ≤ n)
    (hsame : m >>> c.S = n >>> c.S) : clipMagnitude c m ≤ clipMagnitude c n := by
  have hpos : m >>> (c.S - 8) ≤ n >>> (c.S - 8) := shiftRight_mono m n _ h
  have hm := clip_index_fraction c m
  have hn := clip_index_fraction c n
  rw [clipMagnitude, clipMagnitude, hsame]
  split
  · exact le_rfl
  · exact interpolate_mono _ _ _ _ (readClip_mono c _ _ (by omega) (by omega)) (by omega)

/-- Across segments, the end of the first one lies between the two values. -/
theorem clipMagnitude_mono (c : Cfg) (m n : Nat) (h : m ≤ n) :
    clipMagnitude c m ≤ clipMagnitude c n := by
  have hindex : m >>> c.S ≤ n >>> c.S := shiftRight_mono m n _ h
  rcases lt_or_ge (n >>> c.S) (c.K - 1) with hseg | htop
  · rcases hindex.eq_or_lt with hsame | hlt
    · exact clipMagnitude_mono_of_same_index c m n h hsame
    · calc clipMagnitude c m ≤ readClip c (m >>> c.S + 1) :=
            (clipMagnitude_segment c m (by omega)).2
        _ ≤ readClip c (n >>> c.S) := readClip_mono c _ _ hlt (by omega)
        _ ≤ clipMagnitude c n := (clipMagnitude_segment c n hseg).1
  · rw [clipMagnitude_top c n htop]
    exact (clipMagnitude_range c m).2

/-- The covered range ends at `(K-1) * 2^S` (R142 (a)). -/
theorem clipMagnitude_saturates (c : Cfg) (mag : Nat)
    (h : ((c.K : Int) - 1) * 2 ^ c.S ≤ mag) : clipMagnitude c mag = readClip c (c.K - 1) := by
  have hK := c.two_le_K
  apply clipMagnitude_top
  rw [Nat.shiftRight_eq_div_pow, Nat.le_div_iff_mul_le (Nat.two_pow_pos _)]
  zify [show 1 ≤ c.K by omega]
  exact h

/-! ### The limiter on all integers (R142) -/

theorem softclip_neg (c : Cfg) (x : Int) : softclip c (-x) = -softclip c x := by
  rcases lt_trichotomy x 0 with hneg | rfl | hpos
  · rw [softclip_of_neg c x hneg, softclip_of_nonneg c _ (by omega), Int.natAbs_neg, neg_neg]
  · rw [neg_zero, softclip_of_nonneg c 0 le_rfl, Int.natAbs_zero, clipMagnitude_zero, neg_zero]
  · rw [softclip_of_nonneg c x hpos.le, softclip_of_neg c _ (by omega), Int.natAbs_neg]

/-- An odd function that is monotone from 0 on is monotone. -/
theorem softclip_mono (c : Cfg) : Monotone (softclip c) := by
  refine monotone_of_odd_of_monotoneOn_nonneg (softclip_neg c) fun x hx x' hx' h => ?_
  rw [Set.mem_Ici] at hx hx'
  rw [softclip_of_nonneg c x hx, softclip_of_nonneg c x' hx']
  exact clipMagnitude_mono c _ _ (by omega)

theorem abs_softclip (c : Cfg) (x : Int) : |softclip c x| = clipMagnitude c x.natAbs := by
  have hnonneg := (clipMagnitude_range c x.natAbs).1
  rw [softclip_eq]
  split
  · rw [abs_neg, abs_of_nonneg hnonneg]
  · exact abs_of_nonneg hnonneg

theorem abs_softclip_le (c : Cfg) (x : Int) : |softclip c x| ≤ readClip c (c.K - 1) := by
  rw [abs_softclip]
  exact (clipMagnitude_range c _).2

theorem abs_softclip_of_saturated (c : Cfg) (x : Int) (h : ((c.K : Int) - 1) * 2 ^ c.S ≤ |x|) :
    |softclip c x| = readClip c (c.K - 1) := by
  rw [abs_softclip]
  exact clipMagnitude_saturates c _ (by rwa [Int.natCast_natAbs])

/-- The most negative word has magnitude `2^31`, where the covered range may or may not end before
(log 11). -/
theorem softclip_most_negative (c : Cfg) (h : ((c.K : Int) - 1) * 2 ^ c.S ≤ 2 ^ 31) :
    softclip c (-2 ^ 31) = -readClip c (c.K - 1) := by
  rw [softclip_of_neg c _ (by norm_num)]
  exact congrArg Neg.neg (clipMagnitude_saturates c _ h)

/-- Settles O47, from the laws of the limiter and the reading of the table's last element. -/
theorem softClipIsOddMonotoneAndBounded : Obligations.SoftClipIsOddMonotoneAndBounded := by
  intro c
  have hK := c.two_le_K
  obtain ⟨top, htop, hread⟩ := exists_clip_top c
  refine ⟨top, htop, ?_⟩
  rw [← hread]
  exact ⟨(readClip_range c _ (by omega)).1, softclip_neg c, fun _ _ h => softclip_mono c h,
    abs_softclip_of_saturated c, softclip_most_negative c, abs_softclip_le c⟩

end Sys2Proof.Machine
end

section
/-! PROOFS. The family 45_sample_pipeline.md: what a block's setup writes, what its frames make of it,
and the operations of one frame. -/

namespace Sys2Proof.Machine

/-! ### Closer to 0: the order that division, scaling and saturation keep -/

/-- `a` lies between 0 and `b`. -/
def TowardZero (a b : Int) : Prop := (0 ≤ a ∧ a ≤ b) ∨ (b ≤ a ∧ a ≤ 0)

namespace TowardZero

variable {a b : Int}

theorem abs_le (h : TowardZero a b) : |a| ≤ |b| := by
  obtain ⟨h0, hab⟩ | ⟨hba, h0⟩ := h
  · exact abs_le_abs_of_nonneg h0 hab
  · exact abs_le_abs_of_nonpos h0 hba

theorem neg (h : TowardZero a b) : TowardZero (-a) (-b) := by
  unfold TowardZero at *
  omega

/-- Every monotone operation that answers 0 for 0 keeps the order. -/
theorem map {f : Int → Int} (hf : Monotone f) (hzero : f 0 = 0) (h : TowardZero a b) :
    TowardZero (f a) (f b) := by
  obtain ⟨h0, hab⟩ | ⟨hba, h0⟩ := h
  · exact .inl ⟨hzero ▸ hf h0, hf hab⟩
  · exact .inr ⟨hf hba, hzero ▸ hf h0⟩

/-- A factor of either sign keeps the order. -/
theorem mul_left (m : Int) (h : TowardZero a b) : TowardZero (m * a) (m * b) := by
  rcases le_total 0 m with hm | hm
  · exact h.map (fun _ _ hxy => mul_le_mul_of_nonneg_left hxy hm) (mul_zero m)
  · rw [← neg_mul_neg m a, ← neg_mul_neg m b]
    exact h.neg.map (fun _ _ hxy => mul_le_mul_of_nonneg_left hxy (neg_nonneg.2 hm)) (mul_zero (-m))

theorem sra (n : Nat) (h : TowardZero a b) : TowardZero (Machine.sra a n) (Machine.sra b n) :=
  h.map (fun x y hxy => sra_mono x y n hxy) (Int.zero_ediv _)

theorem sat32 (h : TowardZero a b) : TowardZero (Machine.sat32 a) (Machine.sat32 b) :=
  h.map (fun x y hxy => clamp_mono x y (-2147483648) 2147483647 (by decide) hxy) rfl

end TowardZero

/-- The remainder toward zero has the sign of the dividend and no larger magnitude. -/
theorem tmod_towardZero (a d : Int) : TowardZero (Int.tmod a d) a := by
  have habs : (Int.tmod a d).natAbs ≤ a.natAbs := by
    rw [Int.natAbs_tmod]
    exact Nat.mod_le _ _
  rcases le_total 0 a with ha | ha
  · have hsign := Int.tmod_nonneg d ha
    exact .inl ⟨hsign, by omega⟩
  · have hsign := Int.tmod_nonneg d (neg_nonneg.2 ha)
    rw [Int.neg_tmod] at hsign
    exact .inr ⟨by omega, by omega⟩

/-! ### The raw modulation index (R167) -/

theorem sat32_eq (v : Int) : sat32 v =
    if v < -2147483648 then -2147483648 else if 2147483647 < v then 2147483647 else v := rfl

theorem modidx_eq (m staticOffset lfoOut : Int) :
    modidx m staticOffset lfoOut = sat32 (m * (staticOffset + lfoOut) / 16) := rfl

/-- Settles O48: the three cases are the branches of the saturation. -/
theorem rawIndexSaturates : Obligations.RawIndexSaturates := by
  intro m staticOffset lfoOut v
  have hraw : modidx m staticOffset lfoOut = sat32 v := modidx_eq m staticOffset lfoOut
  rw [hraw, sat32_eq]
  refine ⟨fun hlo => if_pos hlo, fun hhi => ?_, fun hlo hhi => ?_, ?_⟩
  · rw [if_neg (by omega), if_pos hhi]
  · rw [if_neg (by omega), if_neg (by omega)]
  · rw [modidx_eq, zero_mul]
    rfl

/-! ### The index magnitude under the LFO (R153, R133, R167) -/

theorem routeValue_mono (c : Cfg) (shape shape' : Nat) (h : shape ≤ shape') :
    routeValue c shape ≤ routeValue c shape' :=
  Nat.add_le_add_left (shiftRight_mono _ _ 16 (Nat.mul_le_mul_right _ h)) _

theorem lfoScale_towardZero (w : Int) {d d' : Int} (h : TowardZero d d') :
    TowardZero (lfoScale w d) (lfoScale w d') :=
  (h.mul_left w).sra 12

/-- With no static offset. -/
theorem modidx_towardZero (m : Int) {l l' : Int} (h : TowardZero l l') :
    TowardZero (modidx m 0 l) (modidx m 0 l') := by
  unfold modidx
  rw [zero_add, zero_add]
  exact ((h.mul_left m).sra 4).sat32

/-- Settles O49: the shape's value is not negative and grows with the shape, and each operation from
there to the raw index keeps what lies closer to 0. -/
theorem indexMagnitudeGrowsWithShape : Obligations.IndexMagnitudeGrowsWithShape := by
  intro c m w shape shape' hle _
  have hroute : TowardZero (routeValue c shape) (routeValue c shape') :=
    .inl ⟨Int.natCast_nonneg _, Int.ofNat_le.2 (routeValue_mono c shape shape' hle)⟩
  obtain ⟨top, htop, hread⟩ := exists_clip_top c
  exact ⟨(modidx_towardZero m (lfoScale_towardZero w hroute)).abs_le, top, htop,
    hread ▸ abs_softclip_le c _⟩

/-! ### The modulated increment (R169) -/

theorem modinc_eq (d x : Int) : modinc d x = d + d * x / 16777216 := rfl

theorem modinc_zero_right (d : Int) : modinc d 0 = d := by
  rw [modinc_eq, mul_zero, Int.zero_ediv, add_zero]

theorem modinc_zero_left (x : Int) : modinc 0 x = 0 := by
  rw [modinc_eq, zero_mul, Int.zero_ediv, add_zero]

/-- An index of -1.0 stops the output phase. -/
theorem modinc_neg_one (d : Int) : modinc d (-16777216) = 0 := by
  rw [modinc_eq]
  omega

/-- The product has at most 63 bits, and the shift leaves at most 39 of them. -/
theorem abs_modinc_lt (d x : Int) (hd0 : 0 ≤ d) (hd1 : d < 2 ^ 32) (hx0 : -2 ^ 31 < x)
    (hx1 : x < 2 ^ 31) : |modinc d x| < 2 ^ 40 := by
  have hlo : d * -2 ^ 31 ≤ d * x := mul_le_mul_of_nonneg_left hx0.le hd0
  have hhi : d * x ≤ d * 2 ^ 31 := mul_le_mul_of_nonneg_left hx1.le hd0
  rw [modinc_eq, abs_lt]
  omega

/-- An index below -1.0 turns the output phase back. -/
theorem modinc_neg (d x : Int) (hx : x < -16777216) (hd : 0 < d) : modinc d x < 0 := by
  have hproduct : d * x < d * -16777216 := mul_lt_mul_of_pos_left hx hd
  rw [modinc_eq]
  omega

/-- Settles O50, from the formula, its bound and its corner cases. -/
theorem modulatedIncrementIsSigned : Obligations.ModulatedIncrementIsSigned :=
  fun d x hd0 hd1 hx0 hx1 => ⟨modinc_eq d x, abs_modinc_lt d x hd0 hd1 hx0 hx1,
    modinc_zero_right d, modinc_zero_left x, modinc_neg_one d, modinc_neg d x⟩

/-! ### The core pitch (R151) -/

theorem pitchcore_eq (h : Word16) :
    pitchcore (operandPitch h) = Int.tdiv ((h.toNat : Int) * 65536 - 69 * 16777216) 12 :=
  truncdiv_eq_tdiv _ _

theorem procBlock_pitch_toInt (c : Cfg) (h : Word16) (y z : Word32) (s : State) :
    (procBlock c h y z s).pitch.toInt = pitchcore (operandPitch h) := by
  obtain ⟨hlo, hhi⟩ := pitchcore_range h
  rw [procBlock_pitch, procSetup_pitch, toReg_toInt _ (by omega) (by omega)]

/-- Settles O24: the value fits the register, and no frame writes it. -/
theorem procWritesTheCorePitch : Obligations.ProcWritesTheCorePitch := by
  intro h y z s
  refine ⟨procBlock Config.cfg h y z s, rfl, ?_⟩
  rw [procBlock_pitch_toInt]
  exact ⟨pitchcore_eq h, pitchcore_range h⟩

/-! ### The routing of the shape (R153, R155) -/

section
variable (c : Cfg) (h : Word16) (y z : Word32) (s : State)

theorem procBlock_staticOffset : (procBlock c h y z s).staticOffset =
    if lfoIndex s.paramShift.toNat = 0 then toReg (routeValue c s.paramShape.toNat) else 0 := by
  rw [procBlock, frames_keep c State.staticOffset (frame_staticOffset c), procSetup_staticOffset]

theorem procBlock_depth : (procBlock c h y z s).depth =
    if lfoIndex s.paramShift.toNat = 0 then 0 else toReg (routeValue c s.paramShape.toNat) := by
  rw [procBlock, frames_keep c State.depth (frame_depth c), procSetup_depth]

end

theorem lfoIndex_eq_zero_iff (v : Nat) : lfoIndex v = 0 ↔ v ≤ 697 := by
  have hone := le_lfoIndex_iff 1 v (by decide)
  omega

theorem routeValue_toReg_toInt (c : Cfg) (shape : Nat) (h : shape ≤ 65536) :
    (toReg (routeValue c shape)).toInt = routeValue c shape := by
  obtain ⟨-, -, hfit⟩ := routeValue_range c shape h
  exact toReg_toInt _ (by omega) (by omega)

/-- Settles O27: the index is 0 up to PARAM_SHIFT 697, and decides which of the two registers gets
the value and which gets 0. -/
theorem procRoutesExactlyOneModulation : Obligations.ProcRoutesExactlyOneModulation := by
  intro h y z s hshape r
  obtain ⟨hlo, hhi, -⟩ := routeValue_range Config.cfg _ hshape
  have hr : routeValue Config.cfg s.paramShape.toNat = r := routeValue_eq _ _
  have hreg := routeValue_toReg_toInt Config.cfg _ hshape
  rw [hr] at hlo hhi hreg
  refine ⟨hlo, hhi, procBlock Config.cfg h y z s, rfl, fun hoffset => ?_, fun hdepth => ?_⟩
  · have hidx := (lfoIndex_eq_zero_iff _).2 hoffset
    rw [procBlock_staticOffset, procBlock_depth, if_pos hidx, if_pos hidx, hr]
    exact ⟨hreg, rfl⟩
  · have hidx := mt (lfoIndex_eq_zero_iff _).1 hdepth.not_ge
    rw [procBlock_staticOffset, procBlock_depth, if_neg hidx, if_neg hidx, hr]
    exact ⟨rfl, hreg⟩

/-! ### The modulation-input delta (R154) -/

/-- The register of a difference is the 32-bit subtraction. -/
theorem toReg_sub (a b : Int) : toReg (a - b) = toReg a - toReg b := by
  rw [toReg, sub_eq_add_neg, BitVec.ofInt_add, BitVec.ofInt_neg, ← BitVec.sub_eq_add_neg]
  rfl

theorem toReg_toInt_self (v : Word32) : toReg v.toInt = v := BitVec.ofInt_toInt

/-- The wrapped difference is the 32-bit subtraction read as signed. -/
theorem moddelta_of_ne_zero (y m : Word32) (n : Nat) (hn : n ≠ 0) :
    moddelta (operandS32 y) m.toInt n = Int.tdiv (y - m).toInt n := by
  rw [moddelta, if_neg hn, truncdiv_eq_tdiv, operandS32_eq, wrap32s_eq_toReg, toReg_sub,
    toReg_toInt_self, toReg_toInt_self]

section
variable (c : Cfg) (h : Word16) (y z : Word32) (s : State)

theorem procBlock_modInDelta : (procBlock c h y z s).modInDelta =
    toReg (moddelta (operandS32 y) s.modIn.toInt (operandFrames z)) := by
  rw [procBlock, frames_keep c State.modInDelta (frame_modInDelta c), procSetup_modInDelta]

theorem procBlock_modInDelta_of_no_frames : (procBlock c h y 0 s).modInDelta = 0 := by
  rw [procBlock_modInDelta, moddelta, if_pos (show operandFrames 0 = 0 from rfl)]
  rfl

theorem procBlock_modInDelta_toInt (hz : z ≠ 0) :
    (procBlock c h y z s).modInDelta.toInt = Int.tdiv (y - s.modIn).toInt z.toNat := by
  have hframes : operandFrames z ≠ 0 := fun h0 => hz (BitVec.eq_of_toNat_eq h0)
  obtain ⟨hlo, hhi⟩ := moddelta_range (operandS32 y) s.modIn.toInt (operandFrames z)
  rw [procBlock_modInDelta, toReg_toInt _ hlo hhi, moddelta_of_ne_zero _ _ _ hframes]
  rfl

end

/-- Settles O28, by the two cases of MODDELTA. -/
theorem procWritesTheModulationDelta : Obligations.ProcWritesTheModulationDelta :=
  fun h y z s => ⟨procBlock Config.cfg h y z s, rfl,
    fun hz => hz ▸ procBlock_modInDelta_of_no_frames Config.cfg h y s,
    procBlock_modInDelta_toInt Config.cfg h y z s⟩

/-! ### The modulation input over a block (R171) -/

/-- `n` frames add the delta `n` times, in 32-bit arithmetic. -/
theorem frames_modIn (c : Cfg) (n : Nat) (s : State) :
    (frames c n s).modIn = s.modIn + BitVec.ofNat 32 n * s.modInDelta := by
  induction n generalizing s with
  | zero => rw [frames, BitVec.zero_mul, BitVec.add_zero]
  | succ n ih =>
    rw [frames_succ, ih, frame_modIn_eq_add, frame_modInDelta, BitVec.ofNat_add,
      add_mul, BitVec.one_mul, add_assoc, add_comm s.modInDelta]

theorem procBlock_modIn (c : Cfg) (h : Word16) (y z : Word32) (s : State) :
    (procBlock c h y z s).modIn = s.modIn + z * (procBlock c h y z s).modInDelta := by
  rw [procBlock, frames_keep c State.modInDelta (frame_modInDelta c), frames_modIn,
    procSetup_modIn, operandFrames, BitVec.ofNat_toNat, BitVec.setWidth_eq]

/-- `z` times the quotient of a word by `z` falls short of the word by the remainder, which fits. -/
theorem sub_mul_tdiv_toInt (v z q : Word32) (hq : q.toInt = Int.tdiv v.toInt z.toNat) :
    (v - z * q).toInt = Int.tmod v.toInt z.toNat := by
  have hlo := BitVec.le_toInt v
  have hhi := BitVec.toInt_lt (x := v)
  have hrem := tmod_towardZero v.toInt z.toNat
  have hword : v - z * q = toReg (Int.tmod v.toInt z.toNat) := by
    have hproduct : toReg (z.toNat * q.toInt) = z * q := by
      rw [toReg, BitVec.ofInt_mul, BitVec.ofInt_toInt, BitVec.ofInt_natCast, BitVec.ofNat_toNat,
        BitVec.setWidth_eq]
    rw [Int.tmod_def, ← hq, toReg_sub, toReg_toInt_self, hproduct]
  unfold TowardZero at hrem
  rw [hword, toReg_toInt _ (by omega) (by omega)]

/-- Settles O32: the sum over the frames, and the division of R154 with its remainder. -/
theorem procAccumulatesTheModulationInput : Obligations.ProcAccumulatesTheModulationInput := by
  intro h y z s
  refine ⟨procBlock Config.cfg h y z s, rfl, procBlock_modIn _ h y z s, fun hz => ?_⟩
  rw [procBlock_modIn, ← sub_sub]
  exact sub_mul_tdiv_toInt _ _ _ (procBlock_modInDelta_toInt Config.cfg h y z s hz)

/-! ### One frame (R160, R172 to R174) -/

section
variable (c : Cfg) (s : State)

theorem driverAfter_toNat : ((driverAfter c s).toNat : Int) =
    phadv c s.driverPhase.toNat (c.pitchConv s.pitch).toNat :=
  advancePhase_toNat c _ _

theorem lfoout_eq : lfoout c s = trigen c s.lfoPhase.toNat * s.depth.toInt / 4096 := rfl

theorem frame_lfoPhase_toNat : ((frame c s).lfoPhase.toNat : Int) =
    phadv c s.lfoPhase.toNat s.lfoIncrement.toNat := by
  rw [frame_lfoPhase, advancePhase_toNat]

theorem frame_outputPhase_toNat : ((frame c s).outputPhase.toNat : Int) =
    phadv c s.outputPhase.toNat ((c.pitchConv s.pitch).toNat +
      (c.pitchConv s.pitch).toNat * frameIndex c s / 16777216) := by
  rw [frame_outputPhase, advancePhase_toNat, modinc_eq]

/-- The modulator is read at the driver phase after its advance, the triangle at the LFO phase
before it. -/
theorem frameIndex_eq : frameIndex c s =
    softclip c (modidx
      (wtlook c (c.N - 1) (phadv c s.driverPhase.toNat (c.pitchConv s.pitch).toNat).toNat)
      s.staticOffset.toInt (trigen c s.lfoPhase.toNat * s.depth.toInt / 4096)) := by
  rw [frameIndex, lfoout_eq, ← driverAfter_toNat, Int.toNat_natCast]

end

theorem procBlock_one (c : Cfg) (h : Word16) (y : Word32) (s : State) :
    procBlock c h y 1 s = frame c (procSetup c h y 1 s) := rfl

/-- Settles O33: the block is the one frame after the setup, which leaves OUT and the phases, and the
frame leaves the setup's registers. -/
theorem oneFrameFollowsTheStepOrder : Obligations.OneFrameFollowsTheStepOrder := by
  intro h y s
  refine ⟨procBlock Config.cfg h y 1 s, rfl, ?_⟩
  rw [procBlock_one]
  refine ⟨?_, ?_, ?_, ?_, ?_⟩
  · rw [frame_out, frame_waveSel, procSetup_out, procSetup_outputPhase]
    rfl
  · rw [frame_driverIncrement, frame_pitch]
  · rw [frame_driverPhase, driverAfter_toNat, procSetup_driverPhase, frame_pitch]
  · rw [frame_lfoPhase_toNat, frame_lfoIncrement, procSetup_lfoPhase]
  · rw [frame_outputPhase_toNat, frameIndex_eq, frame_pitch, frame_staticOffset, frame_depth,
      procSetup_outputPhase, procSetup_driverPhase, procSetup_lfoPhase]

/-- A frame's sample needs the carrier and the output phase only (R173). -/
theorem frame_out_congr (c : Cfg) (s t : State) (hsel : t.waveSel = s.waveSel)
    (hphase : t.outputPhase = s.outputPhase) :
    (frame c t).out = t.out ++ [toReg (outconv (wtlook c s.waveSel s.outputPhase.toNat))] := by
  rw [frame_out, hsel, hphase]

/-- Changing the modulation input and its delta changes nothing else a frame leaves (R174). -/
theorem frame_withModIn (c : Cfg) (s : State) (x d x' d' : Word32) :
    { frame c { s with modIn := x, modInDelta := d } with modIn := x', modInDelta := d' } =
      { frame c s with modIn := x', modInDelta := d' } := by
  have haudio : AudioEq (frame c { s with modIn := x, modInDelta := d }) (frame c s) :=
    AudioEq.frame ⟨rfl, rfl, rfl, rfl, rfl, rfl, rfl, rfl, rfl⟩
  ext1
  case driverPhase => exact haudio.driverPhase
  case outputPhase => exact haudio.outputPhase
  case lfoPhase => exact haudio.lfoPhase
  case out => exact haudio.out
  case driverIncrement => simp [frame_driverIncrement]
  case frameIdx => simp [frame_frameIdx]
  all_goals simp

/-- Settles O57, from what a frame's sample needs and what the modulation input reaches. -/
theorem frameIgnoresTheModulationInput : Obligations.FrameIgnoresTheModulationInput :=
  fun c s x d => ⟨⟨_, frame_out c s, frame_out_congr c s⟩, frame_withModIn c s x d _ _⟩

end Sys2Proof.Machine
end

section
/-! PROOFS. The family 46_host_commands.md: the port, the commands START, STOP and SET, what a PROC
leaves and emits, and what the host can observe. -/

namespace Sys2Proof.Machine

/-! ### A block, from what it depends on (R186, 45_sample_pipeline.md R173) -/

/-- Two states agree on everything a sample or a phase of a later PROC depends on: the phases, the
parameters and OUT. -/
structure SetupEq (s t : State) : Prop where
  driverPhase : s.driverPhase = t.driverPhase
  outputPhase : s.outputPhase = t.outputPhase
  lfoPhase : s.lfoPhase = t.lfoPhase
  paramShape : s.paramShape = t.paramShape
  paramShift : s.paramShift = t.paramShift
  paramTable : s.paramTable = t.paramTable
  out : s.out = t.out

theorem SetupEq.refl (s : State) : SetupEq s s := ⟨rfl, rfl, rfl, rfl, rfl, rfl, rfl⟩

theorem AudioEq.trans {s t u : State} (h : AudioEq s t) (h' : AudioEq t u) : AudioEq s u where
  driverPhase := h.driverPhase.trans h'.driverPhase
  outputPhase := h.outputPhase.trans h'.outputPhase
  lfoPhase := h.lfoPhase.trans h'.lfoPhase
  waveSel := h.waveSel.trans h'.waveSel
  lfoIncrement := h.lfoIncrement.trans h'.lfoIncrement
  pitch := h.pitch.trans h'.pitch
  staticOffset := h.staticOffset.trans h'.staticOffset
  depth := h.depth.trans h'.depth
  out := h.out.trans h'.out

section
variable {c : Cfg} {s t : State} (p : Word16) (y y' z z' : Word32)

/-- The setup computes every register a frame's sound depends on from the pitch operand and the
parameters; the modulation input and the count of frames do not matter. -/
theorem SetupEq.procSetup (h : SetupEq s t) :
    AudioEq (procSetup c p y z s) (procSetup c p y' z' t) where
  driverPhase := by rw [procSetup_driverPhase, procSetup_driverPhase, h.driverPhase]
  outputPhase := by rw [procSetup_outputPhase, procSetup_outputPhase, h.outputPhase]
  lfoPhase := by rw [procSetup_lfoPhase, procSetup_lfoPhase, h.lfoPhase]
  waveSel := by rw [procSetup_waveSel, procSetup_waveSel, h.paramTable]
  lfoIncrement := by rw [procSetup_lfoIncrement, procSetup_lfoIncrement, h.paramShift]
  pitch := by rw [procSetup_pitch, procSetup_pitch]
  staticOffset := by
    rw [procSetup_staticOffset, procSetup_staticOffset, h.paramShift, h.paramShape]
  depth := by rw [procSetup_depth, procSetup_depth, h.paramShift, h.paramShape]
  out := by rw [procSetup_out, procSetup_out, h.out]

theorem SetupEq.procBlock (h : SetupEq s t) :
    AudioEq (procBlock c p y z s) (procBlock c p y' z t) :=
  (h.procSetup p y y' z z).frames (operandFrames z)

/-- A second setup of the same pitch, the parameters being those of the first, rewrites what a
frame's sound depends on with the values it has. -/
theorem procSetup_procBlock_audioEq :
    AudioEq (procSetup c p y' z' (procBlock c p y z s)) (procBlock c p y z s) where
  driverPhase := procSetup_driverPhase ..
  outputPhase := procSetup_outputPhase ..
  lfoPhase := procSetup_lfoPhase ..
  waveSel := by rw [procSetup_waveSel, procBlock_paramTable, procBlock_waveSel]
  lfoIncrement := by
    rw [procSetup_lfoIncrement, procBlock_paramShift, procBlock_lfoIncrement,
      procSetup_lfoIncrement]
  pitch := by rw [procSetup_pitch, procBlock_pitch, procSetup_pitch]
  staticOffset := by
    rw [procSetup_staticOffset, procBlock_paramShift, procBlock_paramShape, procBlock_staticOffset]
  depth := by
    rw [procSetup_depth, procBlock_paramShift, procBlock_paramShape, procBlock_depth]
  out := procSetup_out ..

end

/-- A block of `z1` frames and one of `z2` are to the ear the block of `z1 + z2` frames. -/
theorem procBlock_split (c : Cfg) (p : Word16) (y y1 y2 z z1 z2 : Word32) (s : State)
    (hz : z1.toNat + z2.toNat = z.toNat) :
    AudioEq (procBlock c p y2 z2 (procBlock c p y1 z1 s)) (procBlock c p y z s) := by
  have hjoin : frames c z2.toNat (procBlock c p y1 z1 s) =
      frames c z.toNat (procSetup c p y1 z1 s) := by
    rw [← hz, frames_add]; rfl
  have hsecond : AudioEq (procBlock c p y2 z2 (procBlock c p y1 z1 s))
      (frames c z2.toNat (procBlock c p y1 z1 s)) :=
    (procSetup_procBlock_audioEq p y1 y2 z1 z2).frames z2.toNat
  rw [hjoin] at hsecond
  exact hsecond.trans (((SetupEq.refl s).procSetup p y1 y z1 z).frames z.toNat)

/-- Settles O35: the two blocks agree with the one on everything audible. -/
theorem splittingABlockKeepsSamplesAndPhases :
    Obligations.SplittingABlockKeepsSamplesAndPhases := by
  intro p y y1 y2 z z1 z2 s hz
  have haudio := procBlock_split Config.cfg p y y1 y2 z z1 z2 s hz
  exact ⟨_, _, _, rfl, rfl, rfl, haudio.out, haudio.driverPhase, haudio.outputPhase,
    haudio.lfoPhase⟩

/-! ### What a PROC leaves and emits (R186) -/

section
variable (c : Cfg) (p : Word16) (y z : Word32) (s : State)

@[simp] theorem procBlock_ill : (procBlock c p y z s).ill = s.ill := by
  rw [procBlock, frames_keep c State.ill (frame_ill c), procSetup_ill]

@[simp] theorem procBlock_inputs : (procBlock c p y z s).inputs = s.inputs := by
  rw [procBlock, frames_keep c State.inputs (frame_inputs c), procSetup_inputs]

@[simp] theorem procBlock_frameCnt : (procBlock c p y z s).frameCnt = z := by
  rw [procBlock, frames_keep c State.frameCnt (frame_frameCnt c), procSetup_frameCnt]

/-- The index counts up from 0, once a frame, and 32 bits hold the count. -/
@[simp] theorem procBlock_frameIdx : (procBlock c p y z s).frameIdx = z := by
  rw [procBlock, frames_frameIdx, procSetup_frameIdx, operandFrames, BitVec.ofNat_toNat,
    BitVec.setWidth_eq]
  exact BitVec.zero_add z

theorem procBlock_sameParams : s.SameParams (procBlock c p y z s) :=
  ⟨procBlock_paramShape c p y z s, procBlock_paramShift c p y z s, procBlock_paramTable c p y z s⟩

theorem procBlock_emits :
    ∃ l, (procBlock c p y z s).out = s.out ++ l ∧ l.length = z.toNat := by
  have hframes := frames_out c z.toNat (procSetup c p y z s)
  rwa [procSetup_out] at hframes

/-- A block of no frames is its setup. -/
theorem procBlock_of_no_frames : procBlock c p y 0 s = procSetup c p y 0 s := rfl

end

/-- Settles O29: the setup emits nothing, each frame one sample, and neither writes the rest. -/
theorem procEmitsOneSamplePerFrame : Obligations.ProcEmitsOneSamplePerFrame := by
  intro p y z s
  obtain ⟨l, hout, hlen⟩ := procBlock_emits Config.cfg p y z s
  exact ⟨procBlock Config.cfg p y z s, l, rfl, hout, hlen, procBlock_frameCnt ..,
    procBlock_frameIdx .., procBlock_sameParams .., procBlock_ill .., procBlock_seq ..,
    procBlock_inputs ..⟩

/-- Settles O30: the setup writes no phase, no sample, neither the driver increment nor the
modulation input. -/
theorem procOfZeroFramesIsSetupOnly : Obligations.ProcOfZeroFramesIsSetupOnly := by
  intro p y s
  refine ⟨procBlock Config.cfg p y 0 s, rfl, ?_⟩
  have hdelta := procBlock_modInDelta_of_no_frames Config.cfg p y s
  have hpitch := (procBlock_pitch_toInt Config.cfg p y 0 s).trans (pitchcore_eq p)
  have hparams := procBlock_sameParams Config.cfg p y 0 s
  rw [procBlock_of_no_frames] at hdelta hpitch hparams ⊢
  exact ⟨procSetup_driverPhase .., procSetup_outputPhase .., procSetup_lfoPhase ..,
    procSetup_driverIncrement .., procSetup_modIn .., procSetup_out .., hdelta,
    procSetup_frameCnt .., procSetup_frameIdx .., hparams, procSetup_ill .., procSetup_seq ..,
    procSetup_inputs .., hpitch⟩

/-! ### The port (R180) -/

theorem acceptWord_of_decode {w : CommandWord} {i : Instr} (h : decode w = .ok i) (s : State) :
    acceptWord w s = exec i s := by
  rw [acceptWord, h]

theorem acceptWord_of_decode_error {w : CommandWord} {e : DecodeError} (h : decode w = .error e)
    (s : State) : acceptWord w s = .next (raiseIllegalCommand s) := by
  rw [acceptWord, h]

/-- Settles O4: the idle core accepts the word, and accepting it runs what it decodes to. -/
theorem stepRunsTheDecodedCommand : Obligations.StepRunsTheDecodedCommand := by
  intro s w rest i hq hin hd _
  rw [step_of_word s w rest hq hin, acceptWord_of_decode hd]

/-- A numbered step neither reads nor writes what the host presents. -/
theorem advance_withInputs (c : Cfg) (s : State) (l : List HostInput) :
    advance c { s with inputs := l } = { advance c s with inputs := l } := by
  cases hq : s.seq <;> simp only [advance, hq] <;> rfl

theorem noReset_of_command {s : State} {w : CommandWord} {rest : List HostInput}
    (h : s.inputs = .command w :: rest) : s.noReset := by
  rw [State.noReset, h]
  simp

/-- Settles O6: a busy core does its next numbered step, with a word held and with none. -/
theorem busyCoreLeavesThePortAlone : Obligations.BusyCoreLeavesThePortAlone := by
  intro s w rest hb hin
  have hq : s.seq ≠ .idle := (busy_iff s).1 hb
  refine ⟨advance Config.cfg s, step_of_busy s hq (noReset_of_command hin), advance_inputs _ s, ?_⟩
  rw [← advance_withInputs]
  exact step_of_busy { s with inputs := [] } hq fun h => nomatch h

/-! ### The illegal forms of a command (R77 (b), R181 to R185) -/

/-- A word of a defined opcode whose format is not met raises IllegalCommand. -/
theorem raisesIllegalCommand_of_decodeFormat {w : CommandWord} {ok : Bool} {i : Instr}
    (h : decode w = decodeFormat ok w i) (hok : ok ≠ true) : raisesIllegalCommand w := by
  rw [Bool.eq_false_iff.2 hok, decodeFormat_false] at h
  exact raisesIllegalCommand_of_decode h

theorem formatN_ne_true {w : CommandWord} (h : w.extractLsb' 0 120 ≠ 0) : formatN w ≠ true := by
  rw [Ne, formatN_iff]
  refine fun h0 => h (BitVec.eq_of_toNat_eq ?_)
  rw [BitVec.extractLsb'_toNat, Nat.shiftRight_zero, h0]
  rfl

theorem formatV_ne_true {w : CommandWord} (h : w.extractLsb' 32 88 ≠ 0) : formatV w ≠ true := by
  rw [Ne, formatV_iff]
  refine fun h0 => h (BitVec.eq_of_toNat_eq ?_)
  rw [BitVec.extractLsb'_toNat, Nat.shiftRight_eq_div_pow]
  change _ = 0
  omega

/-! ### START and STOP (R181, R182) -/

/-- Settles O17: START writes the two phases only; its format leaves no bit of the operands free. -/
theorem startZeroesTheVoicePhases : Obligations.StartZeroesTheVoicePhases := by
  refine ⟨fun s => ⟨_, rfl, rfl, rfl, rfl, rfl, rfl, rfl, ⟨rfl, rfl, rfl, rfl, rfl, rfl, rfl⟩,
    ⟨rfl, rfl, rfl⟩, ⟨rfl, rfl, rfl, rfl⟩⟩, fun w hop hbits => ?_⟩
  obtain ⟨hstart, -⟩ := decode_of_op w
  exact raisesIllegalCommand_of_decodeFormat (hstart hop) (formatN_ne_true hbits)

/-- Settles O18: STOP answers the state it is given, under the same format as START. -/
theorem stopChangesNothing : Obligations.StopChangesNothing := by
  refine ⟨fun s => rfl, fun w hop hbits => ?_⟩
  obtain ⟨-, hstop, -⟩ := decode_of_op w
  exact raisesIllegalCommand_of_decodeFormat (hstop hop) (formatN_ne_true hbits)

/-! ### The SET commands (R183 to R185, R188) -/

/-- Writing the parameter registers leaves every other register. -/
theorem withParams_frame (s : State) (shape shift : Param) (table : Word32) :
    s.SameVoice { s with paramShape := shape, paramShift := shift, paramTable := table } ∧
    s.SameBlock { s with paramShape := shape, paramShift := shift, paramTable := table } ∧
    s.SameRest { s with paramShape := shape, paramShift := shift, paramTable := table } :=
  ⟨⟨rfl, rfl, rfl, rfl, rfl, rfl⟩, ⟨rfl, rfl, rfl, rfl, rfl, rfl, rfl⟩, ⟨rfl, rfl, rfl, rfl⟩⟩

/-- An operand stored raw is the operand (R185). -/
theorem toReg_operandS32 (z : Word32) : toReg (operandS32 z) = z := by
  rw [operandS32_eq, toReg_toInt_self]

/-- Settles O19: the clipped operand as a number, and the frame of a parameter write. -/
theorem setshapeStoresTheClippedOperand : Obligations.SetshapeStoresTheClippedOperand := by
  refine ⟨fun z s => ⟨_, rfl, clipParam_toNat z, rfl, rfl, withParams_frame s _ _ _⟩,
    fun w hop hbits => ?_⟩
  obtain ⟨-, -, hset, -⟩ := decode_of_op w
  exact raisesIllegalCommand_of_decodeFormat (hset hop) (formatV_ne_true hbits)

/-- Settles O20, as for SETSHAPE. -/
theorem setshiftStoresTheClippedOperand : Obligations.SetshiftStoresTheClippedOperand := by
  refine ⟨fun z s => ⟨_, rfl, clipParam_toNat z, rfl, rfl, withParams_frame s _ _ _⟩,
    fun w hop hbits => ?_⟩
  obtain ⟨-, -, -, hset, -⟩ := decode_of_op w
  exact raisesIllegalCommand_of_decodeFormat (hset hop) (formatV_ne_true hbits)

/-- Settles O21: the register of the signed operand is the operand's own bits. -/
theorem settableStoresTheRawOperand : Obligations.SettableStoresTheRawOperand := by
  refine ⟨fun z s => ⟨_, rfl, toReg_operandS32 z, rfl, rfl, withParams_frame s _ _ _⟩,
    fun w hop hbits => ?_⟩
  obtain ⟨-, -, -, -, hset, -⟩ := decode_of_op w
  exact raisesIllegalCommand_of_decodeFormat (hset hop) (formatV_ne_true hbits)

/-- Settles O22: the second write stores what the register holds, since the operand alone decides
the value. -/
theorem setCommandsAreIdempotent : Obligations.SetCommandsAreIdempotent := by
  rintro i z s (rfl | rfl | rfl)
  · exact ⟨_, rfl, rfl⟩
  · exact ⟨_, rfl, rfl⟩
  · exact ⟨_, rfl, rfl⟩

/-! ### What the host can observe (R189) -/

namespace State.SameToHost

variable {s t : State}

theorem refl_of_idle (hq : s.seq = .idle) : s.SameToHost s :=
  ⟨rfl, rfl, rfl, rfl, rfl, rfl, rfl, rfl, rfl, hq, hq⟩

theorem withInputs (h : s.SameToHost t) (l : List HostInput) :
    ({ s with inputs := l } : State).SameToHost { t with inputs := l } :=
  { h with inputs := rfl }

theorem status_eq (h : s.SameToHost t) : status s = status t := by
  obtain ⟨hs, ht⟩ := h.idle
  rw [status, status, busy, busy, h.ill, hs, ht]

theorem setupEq (h : s.SameToHost t) : SetupEq s t :=
  ⟨h.driverPhase, h.outputPhase, h.lfoPhase, h.paramShape, h.paramShift, h.paramTable, h.out⟩

/-- A PROC's setup overwrites the hidden registers that are heard, so its frames sound the same. -/
theorem procBlock (h : s.SameToHost t) (c : Cfg) (p : Word16) (y z : Word32) :
    (procBlock c p y z s).SameToHost (procBlock c p y z t) := by
  have haudio : AudioEq (Machine.procBlock c p y z s) (Machine.procBlock c p y z t) :=
    h.setupEq.procBlock p y y z
  exact
    { driverPhase := haudio.driverPhase
      outputPhase := haudio.outputPhase
      lfoPhase := haudio.lfoPhase
      out := haudio.out
      paramShape := by rw [procBlock_paramShape, procBlock_paramShape, h.paramShape]
      paramShift := by rw [procBlock_paramShift, procBlock_paramShift, h.paramShift]
      paramTable := by rw [procBlock_paramTable, procBlock_paramTable, h.paramTable]
      ill := by rw [procBlock_ill, procBlock_ill, h.ill]
      inputs := by rw [procBlock_inputs, procBlock_inputs, h.inputs]
      idle := by rw [procBlock_seq, procBlock_seq]; exact h.idle }

theorem exec (h : s.SameToHost t) (i : Instr) :
    ∃ s' t', exec i s = .next s' ∧ exec i t = .next t' ∧ s'.SameToHost t' := by
  cases i with
  | start => exact ⟨_, _, rfl, rfl, { h with driverPhase := rfl, outputPhase := rfl }⟩
  | stop => exact ⟨_, _, rfl, rfl, h⟩
  | setshape z => exact ⟨_, _, rfl, rfl, { h with paramShape := rfl }⟩
  | setshift z => exact ⟨_, _, rfl, rfl, { h with paramShift := rfl }⟩
  | settable z => exact ⟨_, _, rfl, rfl, { h with paramTable := rfl }⟩
  | proc p y z => exact ⟨_, _, rfl, rfl, h.procBlock Config.cfg p y z⟩

/-- A word is decoded alike in both states, and an illegal one sets `ill` in both. -/
theorem acceptWord (h : s.SameToHost t) (w : CommandWord) :
    ∃ s' t', acceptWord w s = .next s' ∧ acceptWord w t = .next t' ∧ s'.SameToHost t' := by
  cases hd : decode w with
  | ok i => simpa only [acceptWord_of_decode hd] using h.exec i
  | error e =>
    exact ⟨_, _, acceptWord_of_decode_error hd s, acceptWord_of_decode_error hd t,
      { h with ill := rfl }⟩

/-- One step of both: the host presents the same to both, so both do the same kind of step. -/
theorem step (h : s.SameToHost t) :
    ∃ s' t', step s = .next s' ∧ step t = .next t' ∧ s'.SameToHost t' := by
  obtain ⟨hs, ht⟩ := h.idle
  cases hin : s.inputs with
  | nil => exact ⟨s, t, step_of_idle s hs hin, step_of_idle t ht (h.inputs ▸ hin), h⟩
  | cons a rest =>
    have hin' : t.inputs = a :: rest := h.inputs ▸ hin
    cases a with
    | reset =>
      exact ⟨_, _, step_of_reset s rest hin, step_of_reset t rest hin', refl_of_idle rfl⟩
    | command w =>
      rw [step_of_word s w rest hs hin, step_of_word t w rest ht hin']
      exact (h.withInputs rest).acceptWord w

end State.SameToHost

/-- Settles O53, by induction on the number of steps: every step keeps the agreement, and two states
that agree show the same STATUS. -/
theorem hiddenRegistersAreUnobservable : Obligations.HiddenRegistersAreUnobservable := by
  intro k
  induction k with
  | zero => exact fun s t h => ⟨s, t, rfl, rfl, h, h.status_eq⟩
  | succ k ih =>
    intro s t h
    obtain ⟨s', t', hs, ht, h'⟩ := h.step
    rw [core_run_succ k s s' hs, core_run_succ k t t' ht]
    exact ih s' t' h'

end Sys2Proof.Machine
end

section
/-! PROOFS. The family 60_exceptions.md: every step answers a next state, and what writes `ill`. -/

namespace Sys2Proof.Machine

/-! ### The next state (93_implementation_defined.md section 1, R215) -/

/-- A reset is taken first; without one an idle core accepts a word or waits, and a busy one does its
next numbered step. -/
theorem step_answers_next (s : State) : ∃ t, step s = .next t := by
  by_cases hr : s.noReset
  · by_cases hq : s.seq = .idle
    · cases hin : s.inputs with
      | nil => exact ⟨s, step_of_idle s hq hin⟩
      | cons a rest =>
        cases a with
        | reset => exact absurd (by rw [hin]; rfl) hr
        | command w =>
          rw [step_of_word s w rest hq hin]
          exact acceptWord_answers_next w _
    · exact ⟨_, step_of_busy s hq hr⟩
  · obtain ⟨rest, hin⟩ := List.head?_eq_some_iff.1 (not_not.1 hr)
    exact ⟨_, step_of_reset s rest hin⟩

/-- Settles O7: a reset, an accepted word, a numbered step and an idle step each have one. -/
theorem stepAlwaysAnswersANextState : Obligations.StepAlwaysAnswersANextState := step_answers_next

/-- Settles O5: it is one of the four kinds of a step. -/
theorem idleCoreRetainsItsState : Obligations.IdleCoreRetainsItsState := step_of_idle

/-! ### What leaves `ill` as it was (R200) -/

/-- A command writes phases, parameters, block registers and OUT, never the flag. -/
theorem exec_ill {i : Instr} {s t : State} (h : exec i s = .next t) : t.ill = s.ill := by
  cases i with
  | proc p y z => cases h; exact procBlock_ill Config.cfg p y z s
  | _ => cases h; rfl

/-- At each position of the sequencer the step is the setup, one operation of a frame, or a value
kept in the position; none of them writes the flag. -/
@[simp] theorem advance_ill (c : Cfg) (s : State) : (advance c s).ill = s.ill := by
  cases hq : s.seq <;> simp [advance, hq]

/-- Settles O8: a command answers a next state, whose flag is the old one. -/
theorem legalCommandsRaiseNothing : Obligations.LegalCommandsRaiseNothing := by
  refine ⟨fun i s => ?_, advance_ill⟩
  obtain ⟨t, ht⟩ := exec_answers_next i s
  exact ⟨t, ht, exec_ill ht⟩

/-! ### What sets `ill` (R201, R205) -/

/-- A word the decoder refuses matches no row of the opcode map (R77). -/
theorem legalWord_of_decode_error {w : CommandWord} {e : DecodeError} (h : decode w = .error e) :
    legalWord w = false := by
  refine Bool.eq_false_iff.2 fun hlegal => ?_
  obtain ⟨r, hr, hcov⟩ := List.any_eq_true.1 hlegal
  obtain ⟨i, hi, -⟩ := exists_decode_of_covers hr hcov
  cases h.symm.trans hi

theorem acceptWord_ill {w : CommandWord} {s t : State} (h : acceptWord w s = .next t) :
    t.ill = s.ill ∨ (legalWord w = false ∧ t.ill = true) := by
  obtain ⟨i, -, he⟩ | ⟨e, hd, rfl⟩ := acceptWord_cases w s t h
  · exact .inl (exec_ill he)
  · exact .inr ⟨legalWord_of_decode_error hd, rfl⟩

/-- Without a reset a step keeps the flag, or an idle core accepts an illegal word and sets it. -/
theorem step_ill {s t : State} (h : step s = .next t) (hr : s.noReset) :
    t.ill = s.ill ∨ (t.ill = true ∧
      s.seq = .idle ∧ ∃ w rest, s.inputs = .command w :: rest ∧ legalWord w = false) := by
  obtain ⟨rest, hin, -⟩ | ⟨w, rest, hq, hin, hw⟩ | ⟨-, -, rfl⟩ | ⟨-, -, rfl⟩ := step_cases s t h
  · exact absurd (by rw [hin]; rfl) hr
  · obtain hkeep | ⟨hbad, hset⟩ := acceptWord_ill hw
    · exact .inl hkeep
    · exact .inr ⟨hset, hq, w, rest, hin, hbad⟩
  · exact .inl rfl
  · exact .inl (advance_ill Config.cfg s)

/-- Settles O54: no step but a reset clears the flag, and the one that sets it accepts an illegal
word. -/
theorem illIsStickyAndOnlyIllegalWordsSetIt :
    Obligations.IllIsStickyAndOnlyIllegalWordsSetIt := by
  intro s t h hr
  obtain hkeep | ⟨hset, hillegal⟩ := step_ill h hr
  · exact ⟨hkeep.trans, fun h0 h1 => absurd (h1.symm.trans (hkeep.trans h0)) (by decide)⟩
  · exact ⟨fun _ => hset, fun _ _ => hillegal⟩

end Sys2Proof.Machine
end

section
/-! PROOFS. The family 70_reset_and_hazards.md: the reset event, a PROC right after it, the order of
the commands before a PROC, and the cached driver increment. -/

namespace Sys2Proof.Machine

/-! ### The cached driver increment (R228) -/

/-- A frame is step 2 and then the frame that trusts its result: step 1, which precedes it, neither
reads nor writes the increment. -/
theorem frame_eq_frameCached (c : Cfg) (s : State) :
    frame c s = frameCached c (frameIncrement c s) := rfl

/-- Recomputing an increment that is current changes nothing. -/
theorem frameIncrement_eq_self {c : Cfg} {s : State}
    (h : s.driverIncrement = c.pitchConv s.pitch) : frameIncrement c s = s := by
  rw [frameIncrement, ← h]

/-- A frame leaves the increment current, since only the setup writes the pitch. -/
theorem frameIncrement_frame (c : Cfg) (s : State) : frameIncrement c (frame c s) = frame c s :=
  frameIncrement_eq_self (by rw [frame_driverIncrement, frame_pitch])

/-- From a current increment on, trusting it and recomputing it are the same. -/
theorem frames_eq_framesCached {c : Cfg} (n : Nat) {s : State} (hcur : frameIncrement c s = s) :
    frames c n s = framesCached c n s := by
  induction n generalizing s with
  | zero => rfl
  | succ n ih =>
    calc frames c n (frame c s)
        = framesCached c n (frame c s) := ih (frameIncrement_frame c s)
      _ = framesCached c n (frameCached c s) := by rw [frame_eq_frameCached, hcur]

/-- The first frame recomputes what the cached form computes before the loop. -/
theorem frames_eq_framesCached_frameIncrement (c : Cfg) {n : Nat} (hn : n ≠ 0) (s : State) :
    frames c n s = framesCached c n (frameIncrement c s) := by
  obtain ⟨m, rfl⟩ := Nat.exists_eq_succ_of_ne_zero hn
  exact frames_eq_framesCached m (frameIncrement_frame c s)

/-- Settles O36: the loop of the block has at least one frame, whose step 2 makes the increment
current for all of them. -/
theorem cachedIncrementIsEquivalent : Obligations.CachedIncrementIsEquivalent := by
  intro h y z s hz
  have hframes : z.toNat ≠ 0 := fun h0 => hz (BitVec.eq_of_toNat_eq h0)
  exact congrArg Host.Outcome.next (frames_eq_framesCached_frameIncrement Config.cfg hframes _)

/-! ### The reset event (R220, R221) -/

/-- Settles O2: a reset is taken before the sequencer's position is looked at. -/
theorem resetEventAbandonsEverything : Obligations.ResetEventAbandonsEverything :=
  fun s rest hin => ⟨_, step_of_reset s rest hin, resetEvent_inputs _, rfl⟩

/-- Reset has zeroed the voice phases, which is all START does. -/
theorem exec_start_reset : exec .start State.reset = .next State.reset := rfl

theorem carrierOf_zero (c : Cfg) : carrierOf c 0 = 0 := by
  have hclamp := (carrierOf_eq c 0).1
  have hN := c.two_le_N
  have hspec := clamp_spec 0 0 ((c.N : Int) - 2) (by omega)
  omega

theorem routeValue_zero (c : Cfg) : routeValue c 0 = c.routeMin := by
  rw [routeValue_eq, Nat.zero_mul, Nat.zero_div, Nat.add_zero]

/-- The parameters being 0, the setup selects carrier 0, and index 0 turns the LFO off and gives the
least static offset. -/
theorem procBlock_reset (c : Cfg) (h : Word16) (y z : Word32) :
    (procBlock c h y z State.reset).waveSel = 0 ∧ (procBlock c h y z State.reset).depth = 0 ∧
      (procBlock c h y z State.reset).staticOffset.toInt = c.routeMin := by
  have hidx : lfoIndex State.reset.paramShift.toNat = 0 :=
    (lfoIndex_eq_zero_iff _).2 (Nat.zero_le _)
  have hshape : State.reset.paramShape.toNat = 0 := rfl
  refine ⟨?_, ?_, ?_⟩
  · rw [procBlock_waveSel]
    exact carrierOf_zero c
  · rw [procBlock_depth, if_pos hidx]
  · rw [procBlock_staticOffset, if_pos hidx, hshape, routeValue_toReg_toInt c 0 (Nat.zero_le _),
      routeValue_zero]

/-- Settles O3: START leaves the reset state as it is, and the PROC's setup reads its zeros. -/
theorem procAfterResetIsStartThenProc : Obligations.ProcAfterResetIsStartThenProc :=
  fun h y z => ⟨State.reset, _, exec_start_reset, rfl, rfl, procBlock_reset Config.cfg h y z⟩

/-! ### The order of START and the SET commands (R225) -/

/-- Settles O23: two commands of one row are excluded; any other two write disjoint registers, with
values their operands alone decide, so either order ends in the same record. -/
theorem startAndSetCommandsCommute : Obligations.StartAndSetCommandsCommute := by
  rintro i j s (rfl | ⟨z, rfl⟩ | ⟨z, rfl⟩ | ⟨z, rfl⟩) (rfl | ⟨z', rfl⟩ | ⟨z', rfl⟩ | ⟨z', rfl⟩) hrow
  case inl.inl => exact absurd rfl hrow
  case inr.inl.inr.inl => exact absurd rfl hrow
  case inr.inr.inl.inr.inr.inl => exact absurd rfl hrow
  case inr.inr.inr.inr.inr.inr => exact absurd rfl hrow
  all_goals exact ⟨_, _, _, rfl, rfl, rfl, rfl⟩

end Sys2Proof.Machine
end

section
/-! PROOFS. The decoding vectors of spec/95_test_vectors.md section 4. -/

namespace Sys2Proof

/-- A word decodes to a command exactly when it is the command's encoding, so a decoding vector is
checked by packing the command's fields (R71 to R76). -/
theorem decode_eq_ok_iff {w : CommandWord} {i : Instr} : decode w = .ok i ↔ encode i = w := by
  constructor
  · exact encode_of_decode
  · rintro rfl
    exact decode_encode i

/-- Settles O10: each vector is the packing of the command the spec names, a negative operand standing
as its two's complement. -/
theorem specWordsDecode : Obligations.SpecWordsDecode := by
  refine ⟨?start, ?stop, ?setshape, ?setshift, ?settable, ?proc, ?procAllOnes⟩
  all_goals rw [decode_eq_ok_iff]; decide

end Sys2Proof
end
